-- ==== Sys2Proof/Word.lean ====
section
/-! DEFINITION. The word types: a 32-bit register word (R22, R90), an 8-bit buffer cell (R29), a 32-byte digest (R12). -/

namespace Sys2Proof

/-- A register or command word: 32 bits, bit 0 least significant (R13, R90). -/
abbrev Word := BitVec 32

/-- A buffer cell: a byte, or a character code, of 8 bits (R14, R29). -/
abbrev Byte := BitVec 8

/-- A digest of the hash core: exactly 32 bytes, element 0 first (R10, R70). -/
abbrev Digest := Vector Byte 32

/-- A checksum: exactly 4 bytes (R12, R150). -/
abbrev Checksum := Vector Byte 4

/-- A hash function: total, and of its message alone (R10). -/
abbrev HashFn := List Byte → Digest

end Sys2Proof
end

