-- ==== Sys2Proof/Config.lean ====
section
/-! DEFINITION. What is fixed for one instance of B58E (00_scope.md section 4) and the values the spec leaves open. -/

namespace Sys2Proof

/-- The numeric parameters of an instance, each with its legal range: `CAP` (R8) and `BASE` (R11, R61). -/
structure Params where
  /-- `CAP`, the capacity of `IBUF` in cells (R8). -/
  cap : Nat
  /-- `BASE`, the bus address of the block (R11). -/
  base : Nat
  cap_pos : 1 ≤ cap
  cap_le : cap ≤ 32768
  base_aligned : base % 0x40000 = 0
  deriving DecidableEq, Repr

/-- `WCAP = CAP + 5`, the size of the working buffer (R8). -/
def Params.wcap (p : Params) : Nat := p.cap + 5

/-- `OCAP = 2*CAP + 10`, the size of the output buffer (R8). -/
def Params.ocap (p : Params) : Nat := 2 * p.cap + 10

/-- DESIGN CHOICE (log 1): the instance `State.reset` is an instance of. `CAP = 128` is the value R8 suggests where one
is needed. `BASE` is left to the platform, and 0 is one legal value. -/
def Params.suggested : Params where
  cap := 128
  base := 0
  cap_pos := by decide
  cap_le := by decide
  base_aligned := by decide

/-- `H`, the function of the external hash core (R7, R10): a parameter the spec leaves open, so a constant with no body
(log 2). -/
opaque Config.hash : HashFn

/-- The free values of `IBUF` cells that the host has not written since reset (R44, R234, U1): the content of cell `i`
after the reset that the counter `epoch` numbers. No body, so nothing can be proved of a value (log 3). -/
opaque Config.ibufPowerOn : (epoch i : Nat) → Byte

end Sys2Proof
end

