-- ==== Sys2Proof/Syntax.lean ====
section
/-! DEFINITION. The command set as abstract syntax: one constructor per row of spec/opcode_table.json (R92). -/

namespace Sys2Proof

/-- The four commands (R2, R92). The operands `ILEN` and `IBUF` are state, not syntax (R91). -/
inductive Instr where
  /-- ENC: encode `IBUF[0..ILEN)` (R93, R112). -/
  | enc
  /-- DEC: decode `IBUF[0..ILEN)` (R94, R132). -/
  | dec
  /-- ENCC ver: encode with the version operand `VER` and a checksum (R95, R156). `ver` is the operand as the host
  notation writes it, a number (R101). That it fits the 16-bit field is checked in WellFormed. -/
  | encc (ver : Nat)
  /-- DECC: decode and verify the checksum (R96, R161). -/
  | decc
  deriving DecidableEq, Repr

end Sys2Proof
end

