-- ==== Sys2Proof/WellFormed.lean ====
section
/-! DEFINITION. Which instructions have an encoding. -/

namespace Sys2Proof

/-- An instruction is well-formed when every operand fits its field: `VER` is an unsigned 16-bit integer, 0 to 65535
(R97, R101). The range 256 to 65535 is well-formed: such a command decodes and fails with InvalidVersion (R95). -/
def Instr.wellFormed : Instr → Bool
  | .enc => true
  | .dec => true
  | .encc ver => decide (ver ≤ 0xFFFF)
  | .decc => true

end Sys2Proof
end

