-- ==== Sys2Proof/Decode.lean ====
section
/-! DEFINITION. Decoding a command word, total on all 2^32 words (R99), and after it the encoder (R92 to R96). -/

namespace Sys2Proof

/-- `OP = w[7:0]` (R91). -/
def opField (w : Word) : BitVec 8 := w.extractLsb' 0 8

/-- `VER = w[23:8]` (R91, R97). -/
def verField (w : Word) : BitVec 16 := w.extractLsb' 8 16

/-- `RSV = w[31:24]` (R91). -/
def rsvField (w : Word) : BitVec 8 := w.extractLsb' 24 8

/-- Why a word is illegal (R98). -/
inductive Illegal where
  /-- `RSV != 0`. -/
  | reservedBits
  /-- `OP = 0x00` or `OP >= 0x05`. -/
  | reservedOpcode
  /-- `OP` is 0x01, 0x02 or 0x04 and `VER != 0`. -/
  | versionBits
  deriving DecidableEq, Repr

/-- Commands without the version operand: `VER` must be 0 (R91, R99). -/
def decodePlain (i : Instr) (ver : BitVec 16) : Except Illegal Instr :=
  if ver = 0 then .ok i else .error .versionBits

/-- The decode procedure of R99. -/
def decode (w : Word) : Except Illegal Instr :=
  if rsvField w ≠ 0 then .error .reservedBits
  else if opField w = 0x01 then decodePlain .enc (verField w)
  else if opField w = 0x02 then decodePlain .dec (verField w)
  else if opField w = 0x03 then .ok (.encc (verField w).toNat)
  else if opField w = 0x04 then decodePlain .decc (verField w)
  else .error .reservedOpcode

/-- A word is legal when it decodes to a command (R98, R99). -/
def isLegal (w : Word) : Bool :=
  match decode w with
  | .ok _ => true
  | .error _ => false

/-- Format C: the word with the given fields, `RSV` above `VER` above `OP` (R91). -/
def assemble (rsv : BitVec 8) (ver : BitVec 16) (op : BitVec 8) : Word :=
  rsv ++ (ver ++ op)

/-- The word of an instruction (R93 to R96). Its meaning is intended for well-formed instructions: of a `ver` that does
not fit, the low 16 bits are kept. -/
def encode : Instr → Word
  | .enc => assemble 0 0 0x01
  | .dec => assemble 0 0 0x02
  | .encc ver => assemble 0 (BitVec.ofNat 16 ver) 0x03
  | .decc => assemble 0 0 0x04

/-- The instruction the decoder reads from an instruction of `nbits` bits `w`. A command is one 32-bit word that moves
whole (R63, R90), so the table's numbering of bits is the word's own. -/
def decodeTableWord (nbits w : Nat) : Option Instr :=
  if w % 2 ^ nbits < 2 ^ 32 then (decode (BitVec.ofNat 32 (w % 2 ^ nbits))).toOption else none

end Sys2Proof
end

