-- ==== Sys2Proof/Machine/State.lean ====
section
/-! DEFINITION. The state of B58E as plain data: what 10_state.md gives the machine, and the model's own fields for the
agents outside it (INVENTORY.md, State). -/

namespace Sys2Proof.Machine

/-- `STATUS.STATE` (R24). -/
inductive SeqState where
  /-- 0: no command issued since reset. -/
  | idle
  /-- 1: a command is executing. -/
  | busy
  /-- 2: the last command completed successfully. -/
  | done
  /-- 3: the last command failed. -/
  | error
  deriving DecidableEq, Repr

/-- The errors a command can end with (R200); their numbers are in Flags. -/
inductive ErrorCause where
  /-- A character is not in the alphabet (R201): DEC, DECC. -/
  | invalidCharacter
  /-- `VER > 255` (R202): ENCC. -/
  | invalidVersion
  /-- Fewer than 4 decoded bytes (R203): DECC. -/
  | tooShort
  /-- The checksum differs (R204): DECC. -/
  | checksumMismatch
  /-- An illegal command word (R205). -/
  | illegalCommand
  /-- `ILEN > CAP` (R206): every command. -/
  | lengthOverflow
  deriving DecidableEq, Repr

/-- The reasons this machine stops with a fault: none. Every failure the spec describes is a typed error in `ERR`
(R200, R210) or a bus error response to the host (R65), and the machine goes on (log 16). Safe: no behaviour is cut off. -/
inductive Fault : Type
  deriving DecidableEq, Repr

/-- The reasons a step has no meaning. -/
inductive Refusal where
  /-- An instruction without a meaning yet, by its mnemonic. Raised by no arm of `exec`: all four commands have their
  meaning. Safe: a refusal proves nothing of the hardware. -/
  | notModelled (mnemonic : String)
  deriving DecidableEq, Repr

/-- The memory behind a buffer window: the written cells as (index, byte), indices strictly rising (`Memory.wf`). A cell
that is not listed has not been written (logs 3, 13). -/
abbrev Memory := List Host.Cell

/-- A transaction of the host (R62): the bus address, the access size in bytes and, for a write, an `n`-byte value. -/
inductive Txn where
  /-- `MemRead(addr, n)`. -/
  | read (addr n : Nat)
  /-- `MemWrite(addr, n, v)`. -/
  | write (addr n : Nat) (v : BitVec (8 * n))
  deriving DecidableEq, Repr

/-- The response to a transaction (R62, R65). -/
inductive Response where
  /-- A 4-byte read: the register value (R63). -/
  | word (v : Word)
  /-- A 1-byte read: the cell (R64). -/
  | byte (v : Byte)
  /-- A write that is answered normally, whether it stores or is ignored (R72, R73). -/
  | ok
  /-- The bus error response (R65). It carries no data. -/
  | busError
  deriving DecidableEq, Repr

/-- One turn of the schedule: which agent moves (R20, R217), and what the host asks. -/
inductive Turn where
  /-- The host performs one transaction. -/
  | host (t : Txn)
  /-- The engine takes a step. -/
  | engine
  /-- The reset input is asserted and released (R230). -/
  | reset
  /-- From here on the hash core answers requests, or does not (R82; log 7). -/
  | hashCore (answers : Bool)
  deriving DecidableEq, Repr

/-- The hidden working state of the engine (R40). Indices and counts are natural numbers that the invariant keeps inside
32 bits (R188: none of them wraps). -/
structure Work where
  /-- `LOP`: the opcode of the command in execution. -/
  lop : BitVec 8
  /-- `LVER`: its `VER` field. -/
  lver : BitVec 16
  /-- The legality of its word, latched at issue (R207). -/
  legal : Bool
  /-- `WBUF[0..WCAP)`: the number being divided. -/
  wbuf : List Byte
  /-- `WLEN`: the number of its elements. -/
  wlen : Nat
  /-- `Z`: the count of leading zero elements. -/
  z : Nat
  /-- `START`: the first element not yet reduced to zero. -/
  start : Nat
  /-- `ACC`: the accumulator of DIVMOD. -/
  acc : Word
  /-- `REM`: the running remainder of DIVMOD. -/
  rem : Byte
  /-- `EBUF[0..OCAP)`: the emitted elements, filled downward; the cells written since reset. -/
  ebuf : Memory
  /-- `EPOS`: the lowest filled cell of `EBUF`. -/
  epos : Nat
  /-- `DIG[0..32)`: the last digest received. -/
  dig : Digest
  /-- `CS[0..4)`: the computed checksum. -/
  cs : Checksum
  deriving DecidableEq, Repr

/-- The state of the machine. -/
structure State where
  /-- `CAP` and `BASE` of this instance; no step changes them (log 1). -/
  params : Params
  /-- `STATUS.STATE` (R24). -/
  seq : SeqState
  /-- `ERR.CODE`: none is code 0 (R25, R200). -/
  err : Option ErrorCause
  /-- `ERRPOS` (R26). -/
  errpos : Word
  /-- `ILEN` (R27). -/
  ilen : Word
  /-- `OLEN` (R28). -/
  olen : Word
  /-- `IBUF` (R29): the cells the host has written since reset. -/
  ibuf : Memory
  /-- `OBUF` (R32): the cells completed commands have written since reset, behind the read gate of R32. -/
  obuf : Memory
  /-- The hidden state (R40). -/
  work : Work
  /-- The model's own: how many resets there have been, which selects the free values of unwritten `IBUF` cells (log 3). -/
  powerOn : Nat
  /-- The model's own: whether the hash core answers at present (R82; log 7). -/
  hashAnswers : Bool
  /-- The model's own: the messages the hash core has answered, oldest first (R81; log 15). -/
  hashRequests : List (List Byte)
  /-- The model's own: the schedule, next turn first (log 6). -/
  turns : List Turn
  /-- The model's own: the bus responses the host has received, newest first (R65; log 15). -/
  responses : List Response
  deriving DecidableEq, Repr

/-- The hidden state after reset: the spec leaves all of it unspecified (R44, U4). DESIGN CHOICE (log 4): zeros, and no
cell of `EBUF` written. -/
def Work.reset (p : Params) : Work where
  lop := 0
  lver := 0
  legal := false
  wbuf := List.replicate p.wcap 0
  wlen := 0
  z := 0
  start := 0
  acc := 0
  rem := 0
  ebuf := []
  epos := 0
  dig := Vector.replicate 32 0
  cs := Vector.replicate 4 0

/-- The reset state of R44 for an instance with parameters `p`. -/
def State.resetOf (p : Params) : State where
  params := p
  seq := .idle
  err := none
  errpos := 0
  ilen := 0
  olen := 0
  ibuf := []
  obuf := []
  work := Work.reset p
  powerOn := 0
  hashAnswers := true
  hashRequests := []
  turns := []
  responses := []

/-- The machine right after reset (R44), as the instance `Params.suggested` (log 1). -/
def State.reset : State := State.resetOf Params.suggested

end Sys2Proof.Machine
end

