-- ==== Sys2Proof/Machine/Flags.lean ====
section
/-! DEFINITION. The status indications. B58E has no condition codes (R42): `STATUS.STATE` and `ERR.CODE` are all it has. -/

namespace Sys2Proof.Machine

/-- The number of a sequencer state in `STATUS[1:0]` (R24). -/
def SeqState.bits : SeqState → BitVec 2
  | .idle => 0
  | .busy => 1
  | .done => 2
  | .error => 3

/-- The number of an error in `ERR[7:0]` (R200). -/
def ErrorCause.code : ErrorCause → BitVec 8
  | .invalidCharacter => 1
  | .invalidVersion => 2
  | .tooShort => 3
  | .checksumMismatch => 4
  | .illegalCommand => 5
  | .lengthOverflow => 6

/-- The register `STATUS`: `STATE` in bits [1:0], bits [31:2] read 0 (R24). -/
def State.statusWord (s : State) : Word := s.seq.bits.setWidth 32

/-- `ERR.CODE`: 0 where there is no error (R25, R200). -/
def State.errCode (s : State) : BitVec 8 :=
  match s.err with
  | none => 0
  | some e => e.code

/-- The register `ERR`: `CODE` in bits [7:0], bits [31:8] read 0 (R25). -/
def State.errWord (s : State) : Word := s.errCode.setWidth 32

end Sys2Proof.Machine
end

