-- ==== Sys2Proof/Machine/Memory.lean ====
section
/-! DEFINITION. The memory behind a buffer window: reading and writing single cells, writing a sequence, and the canonical
form. -/

namespace Sys2Proof.Machine

/-- The byte written to cell `i`, or none where the cell has not been written. -/
def Memory.read? : Memory → Nat → Option Byte
  | [], _ => none
  | (a, b) :: m, i => if a = i then some b else Memory.read? m i

/-- Cell `i` takes the value `b`; the indices stay strictly rising. -/
def Memory.write : Memory → Nat → Byte → Memory
  | [], i, b => [(i, b)]
  | (a, c) :: m, i, b =>
    if i < a then (i, b) :: (a, c) :: m
    else if i = a then (i, b) :: m
    else (a, c) :: Memory.write m i b

/-- Cells `i`, `i+1`, … take the elements of a sequence, in order. -/
def Memory.writeSeq : Memory → Nat → List Byte → Memory
  | m, _, [] => m
  | m, i, b :: bs => Memory.writeSeq (Memory.write m i b) (i + 1) bs

/-- The canonical form: indices strictly rising and below the capacity `n`. An unlisted cell reads as no value, so no
listed entry can repeat what an unlisted cell reads as. -/
abbrev Memory.wf (n : Nat) (m : Memory) : Prop :=
  (m.map Prod.fst).Pairwise (· < ·) ∧ ∀ c ∈ m, c.1 < n

end Sys2Proof.Machine
end

