-- ==== Sys2Proof/Machine/Operands.lean ====
section
/-! DEFINITION. The operands of a command that are not in its word: `ILEN` and `IBUF[0..ILEN)` (R91, R105). -/

namespace Sys2Proof.Machine

/-- `IBUF[i]`: the byte the host has written, or the free value the cell holds since the last reset (R29, R234, U1; log 3). -/
def State.inputCell (s : State) (i : Nat) : Byte :=
  match s.ibuf.read? i with
  | some b => b
  | none => Config.ibufPowerOn s.powerOn i

/-- `IBUF[0..ILEN)`, cell 0 first (R67, R68). -/
def State.input (s : State) : List Byte := (List.range s.ilen.toNat).map s.inputCell

/-- `ILEN > CAP`, on unsigned values (R188, R206). -/
def State.inputTooLong (s : State) : Bool := decide (s.params.cap < s.ilen.toNat)

end Sys2Proof.Machine
end

