-- ==== Sys2Proof/Machine/Ops.lean ====
section
/-! DEFINITION. The operations every command shares: issue (which is also the only "return" from an error, R213),
successful completion, error completion (the "taking of an exception" of B58E), the hash port and reset. -/

namespace Sys2Proof.Machine

/-- Issue of the word `w` (R207): the fields and the legality of `w` are latched, `STATE` becomes BUSY, and `ERR`,
`ERRPOS` and `OLEN` are cleared, which leaves an error as well as a result (R213, R238). -/
def State.issue (s : State) (w : Word) : State :=
  { s with
    seq := .busy
    err := none
    errpos := 0
    olen := 0
    work := { s.work with lop := opField w, lver := verField w, legal := isLegal w } }

/-- `complete(out)` (R209), in one step: `OBUF[0..len(out))` and `OLEN` take the result, `ERR` and `ERRPOS` are 0 (log 12),
`STATE` becomes DONE. -/
def State.complete (s : State) (out : List Byte) : State :=
  { s with
    seq := .done
    err := none
    errpos := 0
    olen := BitVec.ofNat 32 out.length
    obuf := s.obuf.writeSeq 0 out }

/-- `raise <Error>(info)` (R210), in one step: `ERR` takes the code, `ERRPOS` the position (0 for every error but
InvalidCharacter), `OLEN` is 0 (log 12), `STATE` becomes ERROR. Nothing else is saved and control goes nowhere. -/
def State.raise (s : State) (e : ErrorCause) (pos : Nat) : State :=
  { s with
    seq := .error
    err := some e
    errpos := BitVec.ofNat 32 pos
    olen := 0 }

/-- The engine's hidden state after a sequence. -/
def State.setWork (s : State) (w : Work) : State := { s with work := w }

/-- The hash core has answered the two requests of CSUM on the message `m`, in this order (R81, R151). -/
def State.logCsum (s : State) (H : HashFn) (m : List Byte) : State :=
  { s with hashRequests := s.hashRequests ++ [m, (H m).toList] }

/-- The reset input (R230, R233): the reset state of R44, whatever the state was. What is outside the block stays: the
schedule, the host's log, the hash core and its log (log 17). The `IBUF` cells hold new unspecified values (R234). -/
def State.resetInput (s : State) : State :=
  { State.resetOf s.params with
    powerOn := s.powerOn + 1
    hashAnswers := s.hashAnswers
    hashRequests := s.hashRequests
    turns := s.turns
    responses := s.responses }

end Sys2Proof.Machine
end

