-- ==== Sys2Proof/Machine/Bus.lean ====
section
/-! DEFINITION. The host port: the address map (R61), reads and writes of registers and buffer cells, bus errors
(20_memory.md). -/

namespace Sys2Proof.Machine

/-- The six registers (R22). -/
inductive Reg where
  | cmd
  | status
  | err
  | errpos
  | ilen
  | olen
  deriving DecidableEq, Repr

/-- What an access reaches (R60). -/
inductive Target where
  /-- A register, moved whole (R63). -/
  | reg (r : Reg)
  /-- `IBUF[i]` (R64). -/
  | ibuf (i : Nat)
  /-- `OBUF[i]` (R64). -/
  | obuf (i : Nat)
  deriving DecidableEq, Repr

/-- The register at an offset (R61, R63). -/
def Reg.atOffset (off : Nat) : Option Reg :=
  if off = 0x00 then some .cmd
  else if off = 0x04 then some .status
  else if off = 0x08 then some .err
  else if off = 0x0C then some .errpos
  else if off = 0x10 then some .ilen
  else if off = 0x14 then some .olen
  else none

/-- The buffer cell at an offset (R61, R64). -/
def Target.cellAtOffset (p : Params) (off : Nat) : Option Target :=
  if 0x10000 ≤ off ∧ off < 0x10000 + p.cap then some (.ibuf (off - 0x10000))
  else if 0x20000 ≤ off ∧ off < 0x20000 + p.ocap then some (.obuf (off - 0x20000))
  else none

/-- What an access of `n` bytes at the bus address `addr` reaches: 4 bytes reach a register, 1 byte reaches a buffer
cell, and any other access reaches nothing, which is a bus error (R63 to R65; log 10). -/
def Target.ofAccess (p : Params) (addr n : Nat) : Option Target :=
  if addr < p.base then none
  else if n = 4 then (Reg.atOffset (addr - p.base)).map .reg
  else if n = 1 then Target.cellAtOffset p (addr - p.base)
  else none

/-- The value a register reads as (R23 to R28). -/
def State.readReg (s : State) : Reg → Word
  | .cmd => 0
  | .status => s.statusWord
  | .err => s.errWord
  | .errpos => s.errpos
  | .ilen => s.ilen
  | .olen => s.olen

/-- `OBUF[i]` as the host reads it: the result element when `STATE = DONE` and `i < OLEN`, and 0x00 in every other case
(R32, R72). -/
def State.outputCell (s : State) (i : Nat) : Byte :=
  if s.seq = .done ∧ i < s.olen.toNat then (s.obuf.read? i).getD 0 else 0

/-- `OBUF[0..OLEN)` as the host reads it. -/
def State.output (s : State) : List Byte := (List.range s.olen.toNat).map s.outputCell

/-- The response to a read (R63, R71, R72, R74). Reads have no side effects (R66). -/
def State.readTarget (s : State) : Target → Response
  | .reg r => .word (s.readReg r)
  | .ibuf i => .byte (s.inputCell i)
  | .obuf i => .byte (s.outputCell i)

/-- A write to `CMD` (R23): issue while `STATE != BUSY` (R207), ignored while BUSY (R73). -/
def State.writeCmd (s : State) (w : Word) : State :=
  if s.seq = .busy then s else s.issue w

/-- A write to `ILEN` (R27): ignored while BUSY (R73). -/
def State.writeIlen (s : State) (w : Word) : State :=
  if s.seq = .busy then s else { s with ilen := w }

/-- A write to `IBUF[i]` (R71): ignored while BUSY (R73). -/
def State.writeInput (s : State) (i : Nat) (b : Byte) : State :=
  if s.seq = .busy then s else { s with ibuf := s.ibuf.write i b }

/-- The effect of a write of the value `v` (R66): read-only registers and `OBUF` ignore it (R24 to R26, R28, R72). A
4-byte write reaches only registers and a 1-byte write only cells (`Target.ofAccess`), so no width here ever cuts `v`. -/
def State.writeTarget (s : State) {n : Nat} (v : BitVec (8 * n)) : Target → State
  | .reg .cmd => s.writeCmd (v.setWidth 32)
  | .reg .ilen => s.writeIlen (v.setWidth 32)
  | .reg .status => s
  | .reg .err => s
  | .reg .errpos => s
  | .reg .olen => s
  | .ibuf i => s.writeInput i (v.setWidth 8)
  | .obuf _ => s

/-- The host receives a response. -/
def State.respond (s : State) (r : Response) : State := { s with responses := r :: s.responses }

/-- One transaction of the host (R62): performed completely or, on a bus error, not at all (R65). -/
def State.transact (s : State) : Txn → State
  | .read addr n =>
    match Target.ofAccess s.params addr n with
    | none => s.respond .busError
    | some t => s.respond (s.readTarget t)
  | .write addr n v =>
    match Target.ofAccess s.params addr n with
    | none => s.respond .busError
    | some t => (s.writeTarget v t).respond .ok

end Sys2Proof.Machine
end

