-- ==== Sys2Proof/Machine/LongDivision.lean ====
section
/-! DEFINITION. The micro-operation DIVMOD (44_long_division.md) and the conversion that ENC, DEC, ENCC and DECC share
(R112, R132): count the leading zeros, divide until the number is zero, strip, prepend. All of it acts on the hidden
state alone. -/

namespace Sys2Proof.Machine

/-- `WBUF[i]`. -/
def Work.wcell (w : Work) (i : Nat) : Byte := w.wbuf.getD i 0

/-- `EBUF[i]`. The sequences read only cells they have written. -/
def Work.ecell (w : Work) (i : Nat) : Byte := (w.ebuf.read? i).getD 0

/-- `WBUF[i..i+k) <- b0 … b(k-1)`: the cells from `i` on take a sequence, the others stay. -/
def Work.storeAt (w : Work) (i : Nat) (bs : List Byte) : Work :=
  { w with wbuf := w.wbuf.take i ++ bs ++ w.wbuf.drop (i + bs.length) }

/-- `WBUF[first..WLEN)`. -/
def Work.number (w : Work) (first : Nat) : List Byte := (w.wbuf.take w.wlen).drop first

/-- What the iterations of DIVMOD leave: the quotient cells, `ACC` and `REM`. -/
structure Division where
  cells : List Byte
  acc : Word
  rem : Byte
  deriving DecidableEq, Repr

/-- `ACC <- REM * base + WBUF[i]`, in 32 bits, of unsigned values (R181, R183, R186). -/
def divAcc (base : Nat) (rem cell : Byte) : Word :=
  rem.setWidth 32 * BitVec.ofNat 32 base + cell.setWidth 32

/-- `WBUF[i] <- ACC div divisor` (R181). -/
def divQuot (divisor : Nat) (acc : Word) : Byte := (acc / BitVec.ofNat 32 divisor).setWidth 8

/-- `REM <- ACC mod divisor` (R181). -/
def divRem (divisor : Nat) (acc : Word) : Byte := (acc % BitVec.ofNat 32 divisor).setWidth 8

/-- The iterations of DIVMOD over a range of cells, strictly left to right, carrying the running remainder (R181). -/
def divCells (base divisor : Nat) : List Byte → (acc : Word) → (rem : Byte) → Division
  | [], acc, rem => { cells := [], acc := acc, rem := rem }
  | c :: cs, _, rem =>
    let acc := divAcc base rem c
    let rest := divCells base divisor cs acc (divRem divisor acc)
    { rest with cells := divQuot divisor acc :: rest.cells }

/-- DIVMOD(first, base, divisor) (R180, R181): the quotient stays in `WBUF[first..WLEN)`, the value returned is left in
`REM`. -/
def Work.divmod (first base divisor : Nat) (w : Work) : Work :=
  let d := divCells base divisor (w.number first) w.acc 0
  { w with wbuf := w.wbuf.take first ++ d.cells ++ w.wbuf.drop w.wlen, acc := d.acc, rem := d.rem }

/-- `EPOS <- EPOS - 1; EBUF[EPOS] <- v` (R112). -/
def Work.push (w : Work) (v : Byte) : Work :=
  { w with epos := w.epos - 1, ebuf := w.ebuf.write (w.epos - 1) v }

/-- `while Z < WLEN and WBUF[Z] = 0: Z <- Z + 1` (R114, R135), at most `fuel` times. -/
def Work.countZeros : (fuel : Nat) → Work → Work
  | 0, w => w
  | fuel + 1, w =>
    if w.z < w.wlen ∧ w.wcell w.z = 0 then Work.countZeros fuel { w with z := w.z + 1 } else w

/-- `if WBUF[START] = 0 then START <- START + 1` (R115). -/
def Work.advance (w : Work) : Work :=
  if w.wcell w.start = 0 then { w with start := w.start + 1 } else w

/-- One pass of the conversion loop (R115, R136): divide, emit the remainder, step over the cell at `START` when it has
become zero. -/
def Work.pass (base divisor : Nat) (emit : Byte → Byte) (w : Work) : Work :=
  let d := w.divmod w.start base divisor
  (d.push (emit d.rem)).advance

/-- `while START < WLEN` (R115, R136), at most `fuel` passes. -/
def Work.passes (base divisor : Nat) (emit : Byte → Byte) : (fuel : Nat) → Work → Work
  | 0, w => w
  | fuel + 1, w =>
    if w.start < w.wlen then Work.passes base divisor emit fuel (w.pass base divisor emit) else w

/-- `while EPOS < OCAP and EBUF[EPOS] = zero: EPOS <- EPOS + 1` (R117, R137), at most `fuel` times. -/
def Work.strip (ocap : Nat) (zero : Byte) : (fuel : Nat) → Work → Work
  | 0, w => w
  | fuel + 1, w =>
    if w.epos < ocap ∧ w.ecell w.epos = zero then
      Work.strip ocap zero fuel { w with epos := w.epos + 1 }
    else w

/-- `repeat k times: EPOS <- EPOS - 1; EBUF[EPOS] <- zero` (R117, R137). -/
def Work.prepend (zero : Byte) : (k : Nat) → Work → Work
  | 0, w => w
  | k + 1, w => Work.prepend zero k (w.push zero)

/-- `Z <- 0` and the count of the leading zeros; `EPOS <- OCAP`, `START <- Z` (R112). -/
def Work.ready (ocap : Nat) (w : Work) : Work :=
  let c := Work.countZeros w.wlen { w with z := 0 }
  { c with epos := ocap, start := c.z }

/-- The conversion of the number in `WBUF[0..WLEN)`, from `Z <- 0` on (R112, R132). Every element needs at most two
passes (R119), so the fuel is never what ends a loop (log 21). -/
def Work.convert (base divisor : Nat) (emit : Byte → Byte) (zero : Byte) (ocap : Nat) (w : Work) : Work :=
  let r := w.ready ocap
  let d := Work.passes base divisor emit (2 * (r.wlen - r.start)) r
  let s := Work.strip ocap zero (ocap - d.epos) d
  Work.prepend zero s.z s

/-- `EBUF[EPOS..OCAP)`, the result of a conversion. -/
def Work.emitted (ocap : Nat) (w : Work) : List Byte :=
  (List.range' w.epos (ocap - w.epos)).map w.ecell

end Sys2Proof.Machine
end

