-- ==== Sys2Proof/Machine/Tables.lean ====
section
/-! DEFINITION. The constant tables `ALPHA` and `RIDX` (R30, R31, R33). They are configuration, not state. -/

namespace Sys2Proof.Machine

/-- The 58 character codes of R30 in digit order: `1` to `9`, `A` to `Z` without `I` and `O`, `a` to `z` without `l`. The
code numbers are ASCII, which the spec takes from general knowledge (log 14). -/
def alphaTable : List Byte :=
  [0x31, 0x32, 0x33, 0x34, 0x35, 0x36, 0x37, 0x38, 0x39] ++
  [0x41, 0x42, 0x43, 0x44, 0x45, 0x46, 0x47, 0x48] ++
  [0x4A, 0x4B, 0x4C, 0x4D, 0x4E] ++
  [0x50, 0x51, 0x52, 0x53, 0x54, 0x55, 0x56, 0x57, 0x58, 0x59, 0x5A] ++
  [0x61, 0x62, 0x63, 0x64, 0x65, 0x66, 0x67, 0x68, 0x69, 0x6A, 0x6B] ++
  [0x6D, 0x6E, 0x6F, 0x70, 0x71, 0x72, 0x73, 0x74, 0x75, 0x76, 0x77, 0x78, 0x79, 0x7A]

/-- `ZERO = ALPHA[0]`, the character `1` (R30). -/
def zeroChar : Byte := 0x31

/-- `ALPHA[d]` for a digit `d`, 0 to 57 (R30). No rule reads the table elsewhere. -/
def alpha (d : Nat) : Byte := alphaTable.getD d zeroChar

/-- `RIDX(c)`: the digit `d` with `ALPHA[d] = c`, or none, which is `invalid` (R31, U3). -/
def ridx (c : Byte) : Option Nat := alphaTable.findIdx? (· == c)

end Sys2Proof.Machine
end

