-- ==== Sys2Proof/Machine/Codec.lean ====
section
/-! DEFINITION. The core encoder and decoder: commands ENC (41_core_encoder.md) and DEC (42_core_decoder.md). -/

namespace Sys2Proof.Machine

/-- The conversion of bytes to characters (R112): radix pair 256 and 58, each remainder mapped through `ALPHA` (R116). -/
def Work.toChars (ocap : Nat) (w : Work) : Work :=
  w.convert 256 58 (fun r => alpha r.toNat) zeroChar ocap

/-- The conversion of digits to bytes (R132): radix pair 58 and 256. -/
def Work.toBytes (ocap : Nat) (w : Work) : Work :=
  w.convert 58 256 (fun r => r) 0 ocap

/-- The sequence of ENC after its empty-input exit (R112): copy the input to `WBUF`, convert. -/
def Work.encodeBytes (ocap : Nat) (x : List Byte) (w : Work) : Work :=
  Work.toChars ocap { w.storeAt 0 x with wlen := x.length }

/-- The validation loop of DEC from index `i` on (R132, R134), left to right: the digits it stores, and the index of the
first invalid character, which ends it. -/
def scanDigits : (i : Nat) → List Byte → List Byte × Option Nat
  | _, [] => ([], none)
  | i, c :: cs =>
    match ridx c with
    | none => ([], some i)
    | some d =>
      let rest := scanDigits (i + 1) cs
      (BitVec.ofNat 8 d :: rest.1, rest.2)

/-- The sequence of DEC after its empty-input exit (R132): validate into `WBUF`, convert. The result is in
`EBUF[EPOS..OCAP)`, or the index of the first invalid character is given. -/
def Work.decodeChars (ocap : Nat) (x : List Byte) (w : Work) : Work × Option Nat :=
  let scanned := scanDigits 0 x
  let loaded := w.storeAt 0 scanned.1
  match scanned.2 with
  | some p => (loaded, some p)
  | none => (Work.toBytes ocap { loaded with wlen := x.length }, none)

/-- ENC (R112): LengthOverflow when `ILEN > CAP` (R206, R208); the empty input completes at once (R113); otherwise the
sequence runs on the hidden state and its result completes the command. -/
def execEnc (s : State) : Host.Outcome State Fault Refusal :=
  if s.inputTooLong then .next (s.raise .lengthOverflow 0)
  else if s.ilen = 0 then .next (s.complete [])
  else
    let w := s.work.encodeBytes s.params.ocap s.input
    .next ((s.setWork w).complete (w.emitted s.params.ocap))

/-- DEC (R132): LengthOverflow when `ILEN > CAP`; the empty input completes at once (R133); an invalid character raises
InvalidCharacter with the least index (R134); otherwise the decoded bytes complete the command. -/
def execDec (s : State) : Host.Outcome State Fault Refusal :=
  if s.inputTooLong then .next (s.raise .lengthOverflow 0)
  else if s.ilen = 0 then .next (s.complete [])
  else
    match s.work.decodeChars s.params.ocap s.input with
    | (w, some p) => .next ((s.setWork w).raise .invalidCharacter p)
    | (w, none) => .next ((s.setWork w).complete (w.emitted s.params.ocap))

end Sys2Proof.Machine
end

