-- ==== Sys2Proof/Machine/Numeral.lean ====
section
/-! DEFINITION. The numeric value of a sequence, its leading zeros and its canonical form (R15). -/

namespace Sys2Proof.Machine

/-- `val_B(s)`: the sequence read as a big-endian number in base `B` (R15). -/
def val (B : Nat) (s : List Nat) : Nat := s.foldl (fun n d => n * B + d) 0

/-- `lz(s)`: the count of leading zero elements (R15). -/
def lz (s : List Nat) : Nat := (s.takeWhile (· = 0)).length

/-- The digits of `n` in base `B`, least significant first, without leading zeros, as long as there is fuel. -/
def digitsUp (B : Nat) : (fuel n : Nat) → List Nat
  | 0, _ => []
  | fuel + 1, n => if n = 0 then [] else n % B :: digitsUp B fuel (n / B)

/-- `canon_B(n)`: the shortest sequence of elements below `B` with value `n`, most significant first (R15). A number has
no more digits than its own value, so the fuel suffices for every `B` above 1. -/
def canon (B n : Nat) : List Nat := (digitsUp B n n).reverse

/-- A sequence of bytes as unsigned numbers (R13, R183). -/
def nats (s : List Byte) : List Nat := s.map BitVec.toNat

end Sys2Proof.Machine
end

