-- ==== Sys2Proof/Machine/Functional.lean ====
section
/-! DEFINITION. The functional definitions `enc`, `dec`, `csum`, `encc`, `decc`, which the spec calls normative (INDEX.md;
R111, R131, R150, R155, R161). The commands run the reference sequences (Codec, Checked) and are stated to agree with
these. `H` is an argument, so that what holds holds of every hash function (R10). -/

namespace Sys2Proof.Machine

/-- `enc(x) = rep(ZERO, lz(x)) ++ [ALPHA[d] for d in canon_58(val_256(x))]` (R111). -/
def enc (x : List Byte) : List Byte :=
  List.replicate (lz (nats x)) zeroChar ++ (canon 58 (val 256 (nats x))).map alpha

/-- The digits of a string, where every character is valid (R131). -/
def digitsOf (s : List Byte) : List Nat := s.map fun c => (ridx c).getD 0

/-- The least index of an invalid character, if there is one (R26, R131). -/
def firstInvalid (s : List Byte) : Option Nat := s.findIdx? fun c => (ridx c).isNone

/-- `dec(s)`: InvalidCharacter at the least invalid index, and otherwise
`rep(0x00, lz(d)) ++ canon_256(val_58(d))` with `d` the digits of `s` (R131). -/
def dec (s : List Byte) : Except Nat (List Byte) :=
  match firstInvalid s with
  | some p => .error p
  | none =>
    .ok (List.replicate (lz (digitsOf s)) 0 ++ (canon 256 (val 58 (digitsOf s))).map (BitVec.ofNat 8))

/-- `d[0..4)`, the first 4 bytes of a digest (R70, R150). -/
def firstFour (d : Digest) : Checksum := #v[d[0], d[1], d[2], d[3]]

/-- `csum(m) = H(H(m))[0..4)` (R150). -/
def csum (H : HashFn) (m : List Byte) : Checksum := firstFour (H (H m).toList)

/-- `[v] ++ p ++ csum([v] ++ p)`, the checked payload (R154). -/
def checkedPayload (H : HashFn) (v : Byte) (p : List Byte) : List Byte :=
  v :: p ++ (csum H (v :: p)).toList

/-- `encc(v, p) = enc([v] ++ p ++ csum([v] ++ p))` (R155). -/
def encc (H : HashFn) (v : Byte) (p : List Byte) : List Byte := enc (checkedPayload H v p)

/-- `decc(s)` with the position of an InvalidCharacter beside the error, 0 for the other errors (R161, R200). -/
def decc (H : HashFn) (s : List Byte) : Except (ErrorCause × Nat) (List Byte) :=
  match dec s with
  | .error p => .error (.invalidCharacter, p)
  | .ok b =>
    if b.length < 4 then .error (.tooShort, 0)
    else if (csum H (b.take (b.length - 4))).toList = b.drop (b.length - 4) then
      .ok (b.take (b.length - 4))
    else .error (.checksumMismatch, 0)

end Sys2Proof.Machine
end

