-- ==== Sys2Proof/Machine/Checked.lean ====
section
/-! DEFINITION. The checksum wrapper (43_checksum_wrapper.md): micro-operation CSUM and the commands ENCC and DECC. Each
sequence takes the hash function as an argument; the commands give it `Config.hash` (R10). -/

namespace Sys2Proof.Machine

/-- CSUM(m) (R151): two requests to the hash core, the second on the first digest; `CS` takes the first 4 bytes. -/
def Work.csum (H : HashFn) (m : List Byte) (w : Work) : Work :=
  let d1 := H m
  let d2 := H d1.toList
  { w with dig := d2, cs := firstFour d2 }

/-- ENCC up to its checksum (R156): `WBUF[0]` takes the version byte, the payload follows it. -/
def Work.loadVersioned (ver : Nat) (p : List Byte) (w : Work) : Work :=
  { (w.storeAt 0 [BitVec.ofNat 8 ver]).storeAt 1 p with wlen := p.length + 1 }

/-- ENCC from its checksum on (R156): `CS` over `WBUF[0..WLEN)` is stored behind it, and the ENC sequence runs from
"Z <- 0" on. -/
def Work.encodeChecked (H : HashFn) (ocap : Nat) (w : Work) : Work :=
  let c := w.csum H (w.wbuf.take w.wlen)
  Work.toChars ocap { c.storeAt c.wlen c.cs.toList with wlen := c.wlen + 4 }

/-- ENCC with the hash function `H` (R156): InvalidVersion when `VER > 255` (R153), then LengthOverflow (R208). While the
hash core does not answer the engine waits (R82; log 7). Otherwise two requests are answered and the result completes
the command. -/
def execEnccWith (H : HashFn) (ver : Nat) (s : State) : Host.Outcome State Fault Refusal :=
  if 255 < ver then .next (s.raise .invalidVersion 0)
  else if s.inputTooLong then .next (s.raise .lengthOverflow 0)
  else if !s.hashAnswers then .next s
  else
    let w0 := s.work.loadVersioned ver s.input
    let w := w0.encodeChecked H s.params.ocap
    .next (((s.setWork w).logCsum H (w0.wbuf.take w0.wlen)).complete (w.emitted s.params.ocap))

/-- ENCC (R156). -/
def execEncc (ver : Nat) (s : State) : Host.Outcome State Fault Refusal :=
  execEnccWith Config.hash ver s

/-- DECC with the hash function `H` (R161): LengthOverflow, then InvalidCharacter, then TooShort, then (the hash core
answering, else the engine waits, R82; log 7) ChecksumMismatch unless all four bytes agree (R164); otherwise the data
without the checksum complete the command (R166). -/
def execDeccWith (H : HashFn) (s : State) : Host.Outcome State Fault Refusal :=
  if s.inputTooLong then .next (s.raise .lengthOverflow 0)
  else
    match s.work.decodeChars s.params.ocap s.input with
    | (w, some p) => .next ((s.setWork w).raise .invalidCharacter p)
    | (w, none) =>
      let b := w.emitted s.params.ocap
      if b.length < 4 then .next ((s.setWork w).raise .tooShort 0)
      else if !s.hashAnswers then .next s
      else
        let data := b.take (b.length - 4)
        let chk := b.drop (b.length - 4)
        let c := w.csum H data
        if c.cs.toList = chk then .next (((s.setWork c).logCsum H data).complete data)
        else .next (((s.setWork c).logCsum H data).raise .checksumMismatch 0)

/-- DECC (R161). -/
def execDecc (s : State) : Host.Outcome State Fault Refusal := execDeccWith Config.hash s

end Sys2Proof.Machine
end

