-- ==== Sys2Proof/Machine/Dispatch.lean ====
section
/-! DEFINITION. One arm per command (R92). -/

namespace Sys2Proof.Machine

/-- The execution of the command issued, from the state after issue to its completion (R207, R209, R210). -/
def exec (i : Instr) (s : State) : Host.Outcome State Fault Refusal :=
  match i with
  | .enc => Sys2Proof.Machine.execEnc s
  | .dec => Sys2Proof.Machine.execDec s
  | .encc ver => Sys2Proof.Machine.execEncc ver s
  | .decc => Sys2Proof.Machine.execDecc s

end Sys2Proof.Machine
end

