-- ==== Sys2Proof/Machine/Engine.lean ====
section
/-! DEFINITION. The engine's step: it executes the command that was latched at issue (R20, R78, R207). -/

namespace Sys2Proof.Machine

/-- The word of the command in execution, as far as it was latched: `LOP` and `LVER`, and `RSV = 0` as in every legal
word (R91, R207; log 22). -/
def State.latchedWord (s : State) : Word := assemble 0 s.work.lver s.work.lop

/-- The command in execution: none where the word written to `CMD` was illegal (R98, R207). -/
def State.command? (s : State) : Option Instr :=
  if s.work.legal then (decode s.latchedWord).toOption else none

/-- The engine takes a step only while `STATE = BUSY` (R20, R76): it executes the command, or ends an illegal word with
IllegalCommand (R98, R205). -/
def engineTurn (s : State) : Host.Outcome State Fault Refusal :=
  if s.seq ≠ .busy then .next s
  else
    match s.command? with
    | some i => exec i s
    | none => .next (s.raise .illegalCommand 0)

end Sys2Proof.Machine
end

