-- ==== Sys2Proof/Machine/Turns.lean ====
section
/-! DEFINITION. What each turn of the schedule does (R20, R75, R217, R230). -/

namespace Sys2Proof.Machine

/-- One turn, in a state whose schedule it has left. -/
def takeTurn (t : Turn) (s : State) : Host.Outcome State Fault Refusal :=
  match t with
  | .host x => .next (s.transact x)
  | .engine => engineTurn s
  | .reset => .next s.resetInput
  | .hashCore answers => .next { s with hashAnswers := answers }

end Sys2Proof.Machine
end

