-- ==== Sys2Proof/Machine/Step.lean ====
section
/-! DEFINITION. The step: the next turn of the schedule; where nothing is scheduled, the engine's (log 6). -/

namespace Sys2Proof.Machine

/-- One step of the machine. Turns are taken one at a time and each has its whole effect before the next (R75, R217). With
an empty schedule the host asks nothing, and the engine is the only agent left to move (R242). -/
def step (s : State) : Host.Outcome State Fault Refusal :=
  match s.turns with
  | [] => engineTurn s
  | t :: ts => takeTurn t { s with turns := ts }

/-- `s` with the instruction `w` about to run: B58E fetches nothing (R21, R78), so this is the state after an accepted
`CMD` write of `w` (R207) with the engine's turn next (log 9). A command is one 32-bit word, whatever `nbits` counts. -/
def State.withFetchWord (s : State) (nbits w : Nat) : State :=
  { s.issue (BitVec.ofNat 32 (w % 2 ^ nbits)) with turns := .engine :: s.turns }

end Sys2Proof.Machine
end

