-- ==== Sys2Proof/Safety.lean ====
section
/-! DEFINITION. What counts as a safe run, in the terms the claims use: the invariant of the machine, the two ways a
command ends as the host sees them, what a command leaves alone, and what it may depend on. -/

namespace Sys2Proof.Machine

/-- The hidden state stays in its ranges (R40): sizes of the buffers, `Z <= START <= WLEN <= WCAP`, `EPOS <= OCAP`, and
`ACC` never above 14847 (R185). -/
structure Work.Fits (p : Params) (w : Work) : Prop where
  wbuf : w.wbuf.length = p.wcap
  z : w.z ≤ w.start
  start : w.start ≤ w.wlen
  wlen : w.wlen ≤ p.wcap
  epos : w.epos ≤ p.ocap
  ebuf : w.ebuf.wf p.ocap
  acc : w.acc.toNat ≤ 14847

/-- The invariant. -/
structure State.Inv (s : State) : Prop where
  /-- `IBUF` has `CAP` cells, in canonical form (R29). -/
  ibuf : s.ibuf.wf s.params.cap
  /-- `OBUF` has `OCAP` cells, in canonical form (R32). -/
  obuf : s.obuf.wf s.params.ocap
  /-- The hidden state stays in its ranges (R40). -/
  work : s.work.Fits s.params
  /-- A latched word is marked legal only if it is (R207). -/
  latched : s.work.legal = true → isLegal s.latchedWord = true
  /-- There is an error code exactly when `STATE` is ERROR (R25). -/
  err : s.err ≠ none ↔ s.seq = .error
  /-- `ERRPOS` is 0 unless the error is InvalidCharacter (R26). -/
  errpos : s.err ≠ some .invalidCharacter → s.errpos = 0
  /-- `ERRPOS` is an index of `IBUF` (R26). -/
  errpos_lt : s.errpos.toNat < s.params.cap
  /-- `OLEN` is 0 unless `STATE` is DONE (R28). -/
  olen : s.seq ≠ .done → s.olen = 0
  /-- `OLEN <= OCAP` (R28). -/
  olen_le : s.olen.toNat ≤ s.params.ocap
  /-- Every cell of the result has been written (R32). -/
  result : ∀ i, i < s.olen.toNat → (s.obuf.read? i).isSome = true

/-- `t` is what the host sees after a successful completion with the result `out` (R209, R32): DONE, no error, `OLEN`
and the read cells of `OBUF` the result, every other cell reading 0x00. -/
def State.DoneWith (t : State) (out : List Byte) : Prop :=
  t.seq = .done ∧ t.err = none ∧ t.errpos = 0 ∧ t.olen.toNat = out.length ∧ t.output = out ∧
    ∀ i, out.length ≤ i → t.outputCell i = 0

/-- `t` is what the host sees after an error completion (R210, R32): ERROR, the error and its position, `OLEN` 0 and
every cell of `OBUF` reading 0x00. -/
def State.FailedWith (t : State) (e : ErrorCause) (pos : Nat) : Prop :=
  t.seq = .error ∧ t.err = some e ∧ t.errpos.toNat = pos ∧ t.olen = 0 ∧ ∀ i, t.outputCell i = 0

/-- What no command writes (R110, R130, R152, R160): the input and its length, the parameters, the latches of the word,
and everything outside the block but the log of the hash port. -/
def State.CommandFrame (s t : State) : Prop :=
  t.params = s.params ∧ t.ilen = s.ilen ∧ t.ibuf = s.ibuf ∧ t.work.lop = s.work.lop ∧ t.work.lver = s.work.lver ∧
    t.work.legal = s.work.legal ∧ t.powerOn = s.powerOn ∧ t.hashAnswers = s.hashAnswers ∧ t.turns = s.turns ∧
    t.responses = s.responses

/-- What a command's result may depend on (R34), beside its word and `H`: `ILEN`, the cells `IBUF[0..min(ILEN, CAP))`,
the capacity, and whether the hash core answers. -/
def State.SameOperands (s t : State) : Prop :=
  s.params = t.params ∧ s.ilen = t.ilen ∧ s.hashAnswers = t.hashAnswers ∧
    ∀ i, i < min s.ilen.toNat s.params.cap → s.inputCell i = t.inputCell i

/-- The same outcome of a command for the host (R34): `STATE`, `ERR`, `ERRPOS`, `OLEN` and every cell of `OBUF` as
read. -/
def State.SameOutcome (s t : State) : Prop :=
  s.seq = t.seq ∧ s.err = t.err ∧ s.errpos = t.errpos ∧ s.olen = t.olen ∧ ∀ i, s.outputCell i = t.outputCell i

/-- Two states that differ in hidden state alone (R40, R41): all that the host can read agrees, and so does the command
in execution. What differs: the working state, and the cells of `OBUF` behind the read gate. -/
structure State.Twins (s t : State) : Prop where
  params : s.params = t.params
  outcome : s.SameOutcome t
  ilen : s.ilen = t.ilen
  ibuf : s.ibuf = t.ibuf
  command : s.seq = .busy → s.command? = t.command?
  powerOn : s.powerOn = t.powerOn
  hashAnswers : s.hashAnswers = t.hashAnswers
  hashRequests : s.hashRequests = t.hashRequests
  turns : s.turns = t.turns
  responses : s.responses = t.responses

end Sys2Proof.Machine
end

