-- ==== Sys2Proof/Certificates/Slice0/Obligations.lean ====
section
/-! DEFINITION. The statements for the provers. Each docstring names the rules of spec/ it formalises and, where it rests
on one, the log entry. -/

open Sys2Proof Sys2Proof.Machine

/-! ### Encoding -/

/-- R93, R94, R96: ENC, DEC and DECC are exactly one word each. -/
def Obligations.PlainCommandsAreExactlyOneWord : Prop :=
  ∀ w : Word,
    (decode w = .ok .enc ↔ w = 0x00000001) ∧
    (decode w = .ok .dec ↔ w = 0x00000002) ∧
    (decode w = .ok .decc ↔ w = 0x00000004)

/-- R99: the decode procedure on every 32-bit word, with the fields `w[31:24]`, `w[23:8]` and `w[7:0]` written as
arithmetic on the word's number. -/
def Obligations.DecodeFollowsTheProcedure : Prop :=
  ∀ w : Word, (decode w).toOption =
    if w.toNat / 2 ^ 24 ≠ 0 then none
    else if w.toNat % 2 ^ 8 = 0x01 then
      if w.toNat / 2 ^ 8 % 2 ^ 16 = 0 then some .enc else none
    else if w.toNat % 2 ^ 8 = 0x02 then
      if w.toNat / 2 ^ 8 % 2 ^ 16 = 0 then some .dec else none
    else if w.toNat % 2 ^ 8 = 0x03 then some (.encc (w.toNat / 2 ^ 8 % 2 ^ 16))
    else if w.toNat % 2 ^ 8 = 0x04 then
      if w.toNat / 2 ^ 8 % 2 ^ 16 = 0 then some .decc else none
    else none

/-- R91 to R97: decoding the word of a well-formed instruction gives the instruction back, with every version operand
from 0 to 65535. -/
def Obligations.DecodeInvertsEncode : Prop :=
  ∀ i : Instr, i.wellFormed = true → decode (encode i) = .ok i

/-- R92, R98: each legal word has one meaning: it is the word of the instruction it decodes to, and that instruction is
well-formed. -/
def Obligations.EncodeInvertsDecode : Prop :=
  ∀ (w : Word) (i : Instr), decode w = .ok i → encode i = w ∧ i.wellFormed = true

/-- R93 to R98: words written out from the encoding tables, `RSV`, `VER` and `OP` in this order. -/
def Obligations.WrittenOutWordsDecode : Prop :=
  decode 0b00000000000000000000000000000001 = .ok .enc ∧
  decode 0b00000000000000000000000000000010 = .ok .dec ∧
  decode 0b00000000000000000001011100000011 = .ok (.encc 23) ∧
  decode 0b00000000111111111111111100000011 = .ok (.encc 65535) ∧
  decode 0b00000000000000000000000000000100 = .ok .decc ∧
  decode 0b00000000000000000000000000000000 = .error .reservedOpcode ∧
  decode 0b00000001000000000000000000000011 = .error .reservedBits ∧
  decode 0b00000000000000000001011100000100 = .error .versionBits

/-! ### Constant tables -/

/-- R31: `RIDX` in its valid ranges, and invalid for every other code. The code numbers are ASCII (log 14). -/
def Obligations.ReverseIndexHasItsRanges : Prop :=
  ∀ c : Byte, ridx c =
    if 0x31 ≤ c.toNat ∧ c.toNat ≤ 0x39 then some (c.toNat - 0x31)
    else if 0x41 ≤ c.toNat ∧ c.toNat ≤ 0x48 then some (c.toNat - 0x41 + 9)
    else if 0x4A ≤ c.toNat ∧ c.toNat ≤ 0x4E then some (c.toNat - 0x4A + 17)
    else if 0x50 ≤ c.toNat ∧ c.toNat ≤ 0x5A then some (c.toNat - 0x50 + 22)
    else if 0x61 ≤ c.toNat ∧ c.toNat ≤ 0x6B then some (c.toNat - 0x61 + 33)
    else if 0x6D ≤ c.toNat ∧ c.toNat ≤ 0x7A then some (c.toNat - 0x6D + 44)
    else none

/-! ### Reset -/

/-- R44: the values the spec gives for reset, for an instance with any parameters: every register reads 0, and so does
every cell of `OBUF`. -/
def Obligations.ResetStateReadsZero : Prop :=
  ∀ (p : Params), (State.resetOf p).seq = .idle ∧
    (∀ r : Reg, (State.resetOf p).readReg r = 0) ∧ ∀ i, (State.resetOf p).outputCell i = 0

/-- R230, R233: the reset input gives the reset state from every state, also while BUSY. What stays is outside the block
(log 17), and no cell of `IBUF` counts as written (R234; log 3). -/
def Obligations.ResetInputGivesTheResetState : Prop :=
  ∀ (s : State) (ts : List Turn), s.turns = .reset :: ts →
    ∃ t, step s = .next t ∧ t.seq = .idle ∧ t.err = none ∧ t.errpos = 0 ∧ t.ilen = 0 ∧ t.olen = 0 ∧
      (∀ i, t.outputCell i = 0) ∧ (∀ i, t.ibuf.read? i = none) ∧ t.params = s.params ∧ t.turns = ts ∧
      t.hashAnswers = s.hashAnswers ∧ t.hashRequests = s.hashRequests ∧ t.responses = s.responses

/-! ### Steps -/

/-- R65, R98, R210: nothing stops the machine; every failure is a state or a response. -/
def Obligations.EveryStepAnswersANextState : Prop :=
  ∀ s : State, ∃ t, step s = .next t

/-- R20, R76, R207: while BUSY with the word of `i` latched, a step of the engine is exec of `i`, whether its turn is
scheduled or nothing is (log 6). -/
def Obligations.StepRunsTheLatchedCommand : Prop :=
  ∀ (s : State) (i : Instr), s.seq = .busy → s.work.legal = true → decode s.latchedWord = .ok i →
    (s.turns = [] → step s = exec i s) ∧
    (∀ ts, s.turns = .engine :: ts → step s = exec i { s with turns := ts })

/-- R207: a `CMD` write of a word that decodes to `i`, while not BUSY, makes the engine's next step exec of `i`; and
`withFetchWord` stands for such a write (log 9). -/
def Obligations.AcceptedWordRunsNext : Prop :=
  ∀ (s : State) (w : Word) (i : Instr) (ts : List Turn), s.seq ≠ .busy → decode w = .ok i →
    s.turns = .host (.write s.params.base 4 w) :: .engine :: ts →
    (∃ t, step s = .next t ∧ step t = exec i { t with turns := ts }) ∧
    step (s.withFetchWord 32 w.toNat) = exec i (s.issue w)

/-- R207: issue. The word is latched, `STATE` is BUSY, `ERR`, `ERRPOS`, `OLEN` are 0 and no result can be read; the rest
is as before. -/
def Obligations.AcceptedCmdWriteIssues : Prop :=
  ∀ (s : State) (w : Word) (ts : List Turn), s.seq ≠ .busy →
    s.turns = .host (.write s.params.base 4 w) :: ts →
    ∃ t, step s = .next t ∧ t.seq = .busy ∧ t.err = none ∧ t.errpos = 0 ∧ t.olen = 0 ∧
      (∀ i, t.outputCell i = 0) ∧ t.work.lop.toNat = w.toNat % 2 ^ 8 ∧
      t.work.lver.toNat = w.toNat / 2 ^ 8 % 2 ^ 16 ∧ t.work.legal = isLegal w ∧
      t = { s with
        seq := .busy, err := none, errpos := 0, olen := 0, turns := ts, responses := .ok :: s.responses,
        work := { s.work with lop := t.work.lop, lver := t.work.lver, legal := t.work.legal } }

/-- R98, R205: a word that does not decode, written to `CMD` while not BUSY, is accepted and fails with IllegalCommand,
code 5, in the engine's next step; nothing is computed and no hash request is made. -/
def Obligations.IllegalWordFailsWithIllegalCommand : Prop :=
  ∀ (s : State) (w : Word) (r : Illegal) (ts : List Turn), s.seq ≠ .busy → decode w = .error r →
    s.turns = .host (.write s.params.base 4 w) :: .engine :: ts →
    ∃ t u, step s = .next t ∧ t.seq = .busy ∧ step t = .next u ∧ u.FailedWith .illegalCommand 0 ∧ u.errCode = 5 ∧
      u.ibuf = s.ibuf ∧ u.ilen = s.ilen ∧ u.obuf = s.obuf ∧ u.hashRequests = s.hashRequests ∧
      u.turns = ts ∧ u.params = s.params

/-- R20, R76: outside BUSY the engine takes no step: its turn changes nothing. -/
def Obligations.EngineRestsOutsideBusy : Prop :=
  ∀ s : State, s.seq ≠ .busy →
    (s.turns = [] → step s = .next s) ∧
    (∀ ts, s.turns = .engine :: ts → step s = .next { s with turns := ts })

/-- R21, R104, R231: the transition relation of `STATE`: reset gives IDLE; an accepted `CMD` write takes IDLE, DONE or
ERROR to BUSY; a step of the engine takes BUSY to DONE or ERROR; nothing else changes it. -/
def Obligations.StateFieldTransitions : Prop :=
  ∀ s t : State, step s = .next t →
    t.seq = s.seq ∨
    (s.turns.head? = some .reset ∧ t.seq = .idle) ∨
    ((∃ w : Word, s.turns.head? = some (.host (.write s.params.base 4 w))) ∧ s.seq ≠ .busy ∧ t.seq = .busy) ∨
    ((s.turns = [] ∨ s.turns.head? = some .engine) ∧ s.seq = .busy ∧ (t.seq = .done ∨ t.seq = .error))

/-! ### The host port -/

/-- R23 to R28, R63: a 4-byte read at the offset of a register responds with the register, and changes nothing else. -/
def Obligations.RegisterReadsReturnTheRegister : Prop :=
  ∀ (s : State) (off : Nat) (v : Word) (ts : List Turn), s.turns = .host (.read (s.params.base + off) 4) :: ts →
    (off = 0x00 ∧ v = 0) ∨
    (off = 0x04 ∧ v.toNat = match s.seq with | .idle => 0 | .busy => 1 | .done => 2 | .error => 3) ∨
    (off = 0x08 ∧ v.toNat = match s.err with
      | none => 0
      | some .invalidCharacter => 1
      | some .invalidVersion => 2
      | some .tooShort => 3
      | some .checksumMismatch => 4
      | some .illegalCommand => 5
      | some .lengthOverflow => 6) ∨
    (off = 0x0C ∧ v = s.errpos) ∨ (off = 0x10 ∧ v = s.ilen) ∨ (off = 0x14 ∧ v = s.olen) →
    step s = .next { s with turns := ts, responses := .word v :: s.responses }

/-- R66: a read has no side effect: whatever it reads, only the host's log of responses grows. -/
def Obligations.ReadsHaveNoSideEffects : Prop :=
  ∀ (s : State) (addr n : Nat) (ts : List Turn), s.turns = .host (.read addr n) :: ts →
    ∃ r, step s = .next { s with turns := ts, responses := r :: s.responses }

/-- R65: an access inside the block that is neither 4 bytes at a register's offset nor 1 byte at a buffer cell gets a bus
error and changes no state of the block. -/
def Obligations.OtherAccessesGetABusError : Prop :=
  ∀ (s : State) (off n : Nat) (ts : List Turn), off < 0x40000 →
    ¬ (n = 4 ∧ (off = 0x00 ∨ off = 0x04 ∨ off = 0x08 ∨ off = 0x0C ∨ off = 0x10 ∨ off = 0x14)) →
    ¬ (n = 1 ∧ ((0x10000 ≤ off ∧ off < 0x10000 + s.params.cap) ∨
        (0x20000 ≤ off ∧ off < 0x20000 + (2 * s.params.cap + 10)))) →
    (s.turns = .host (.read (s.params.base + off) n) :: ts →
      step s = .next { s with turns := ts, responses := .busError :: s.responses }) ∧
    ∀ v, s.turns = .host (.write (s.params.base + off) n v) :: ts →
      step s = .next { s with turns := ts, responses := .busError :: s.responses }

/-- R61, R65 with log 10 (the model's reading): an access outside the 256 KiB of the block gets a bus error and changes
nothing. -/
def Obligations.AccessesOutsideTheBlockGetABusError : Prop :=
  ∀ (s : State) (addr n : Nat) (ts : List Turn), (addr < s.params.base ∨ s.params.base + 0x40000 ≤ addr) →
    (s.turns = .host (.read addr n) :: ts →
      step s = .next { s with turns := ts, responses := .busError :: s.responses }) ∧
    ∀ v, s.turns = .host (.write addr n v) :: ts →
      step s = .next { s with turns := ts, responses := .busError :: s.responses }

/-- R71: in every state (BUSY, R74; IDLE, DONE and ERROR, where R201 lets the host read `IBUF[ERRPOS]`) a 1-byte read of
`IBUF[i]` responds with the cell and changes nothing. A byte written to `IBUF[i]` while not BUSY is what the cell reads as
from then on, every other cell reads as before, and the write does nothing else (R66). A cell not written since reset
holds a free value (U1; log 3). -/
def Obligations.InputCellReadsAsWritten : Prop :=
  ∀ (s : State) (i : Nat) (ts : List Turn), i < s.params.cap →
    (s.turns = .host (.read (s.params.base + 0x10000 + i) 1) :: ts →
      step s = .next { s with turns := ts, responses := .byte (s.inputCell i) :: s.responses }) ∧
    ∀ b : Byte, s.seq ≠ .busy → s.turns = .host (.write (s.params.base + 0x10000 + i) 1 b) :: ts →
      ∃ t, step s = .next t ∧ t.inputCell i = b ∧ (∀ j, j ≠ i → t.inputCell j = s.inputCell j) ∧
        t = { s with ibuf := t.ibuf, turns := ts, responses := .ok :: s.responses } ∧
        ∀ us, t.turns = .host (.read (s.params.base + 0x10000 + i) 1) :: us →
          step t = .next { t with turns := us, responses := .byte b :: t.responses }

/-- R27: a write to `ILEN` while not BUSY stores all 32 bits and does nothing else. -/
def Obligations.InputLengthIsStoredWhole : Prop :=
  ∀ (s : State) (v : Word) (ts : List Turn), s.seq ≠ .busy →
    s.turns = .host (.write (s.params.base + 0x10) 4 v) :: ts →
    step s = .next { s with ilen := v, turns := ts, responses := .ok :: s.responses }

/-- R32, R72: a read of `OBUF[i]` responds with 0x00 unless `STATE = DONE` and `i < OLEN`; in a state that a completion
with `out` leaves it responds with element `i` of `out` where there is one; a write is ignored in every state. -/
def Obligations.OutputCellsAreGated : Prop :=
  ∀ (s : State) (i : Nat) (ts : List Turn), i < 2 * s.params.cap + 10 →
    (s.turns = .host (.read (s.params.base + 0x20000 + i) 1) :: ts →
      (¬ (s.seq = .done ∧ i < s.olen.toNat) →
        step s = .next { s with turns := ts, responses := .byte 0 :: s.responses }) ∧
      ∀ out, s.DoneWith out → ∀ h : i < out.length,
        step s = .next { s with turns := ts, responses := .byte out[i] :: s.responses }) ∧
    ∀ b : Byte, s.turns = .host (.write (s.params.base + 0x20000 + i) 1 b) :: ts →
      step s = .next { s with turns := ts, responses := .ok :: s.responses }

/-- R73: while BUSY a write to `CMD`, `ILEN` or `IBUF` gets a normal response and leaves no trace. -/
def Obligations.BusyIgnoresWrites : Prop :=
  ∀ (s : State) (ts : List Turn), s.seq = .busy →
    (∀ w : Word, s.turns = .host (.write s.params.base 4 w) :: ts ∨
        s.turns = .host (.write (s.params.base + 0x10) 4 w) :: ts →
      step s = .next { s with turns := ts, responses := .ok :: s.responses }) ∧
    ∀ (i : Nat) (b : Byte), i < s.params.cap →
      s.turns = .host (.write (s.params.base + 0x10000 + i) 1 b) :: ts →
      step s = .next { s with turns := ts, responses := .ok :: s.responses }

/-- R74: what a read responds with while BUSY: `STATUS` 1; `ERR`, `ERRPOS`, `OLEN`, `CMD` 0; `OBUF` 0x00; `ILEN` and
`IBUF` their values. -/
def Obligations.BusyReadsAreDefined : Prop :=
  ∀ (s : State) (ts : List Turn), s.Inv → s.seq = .busy →
    (∀ off, s.turns = .host (.read (s.params.base + off) 4) :: ts →
      (off = 0x04 → step s = .next { s with turns := ts, responses := .word 1 :: s.responses }) ∧
      (off = 0x00 ∨ off = 0x08 ∨ off = 0x0C ∨ off = 0x14 →
        step s = .next { s with turns := ts, responses := .word 0 :: s.responses }) ∧
      (off = 0x10 → step s = .next { s with turns := ts, responses := .word s.ilen :: s.responses })) ∧
    ∀ i, (i < 2 * s.params.cap + 10 → s.turns = .host (.read (s.params.base + 0x20000 + i) 1) :: ts →
        step s = .next { s with turns := ts, responses := .byte 0 :: s.responses }) ∧
      (i < s.params.cap → s.turns = .host (.read (s.params.base + 0x10000 + i) 1) :: ts →
        step s = .next { s with turns := ts, responses := .byte (s.inputCell i) :: s.responses })

/-- R24, R25, R26, R28, R66: a write to a read-only register gets a normal response and changes nothing, in every state. -/
def Obligations.ReadOnlyRegistersIgnoreWrites : Prop :=
  ∀ (s : State) (off : Nat) (v : Word) (ts : List Turn), off = 0x04 ∨ off = 0x08 ∨ off = 0x0C ∨ off = 0x14 →
    s.turns = .host (.write (s.params.base + off) 4 v) :: ts →
    step s = .next { s with turns := ts, responses := .ok :: s.responses }

/-- R238: a write to `ILEN` or `IBUF`, in any state, leaves the outcome of the last command readable as it was. -/
def Obligations.InputWritesKeepTheOutcome : Prop :=
  ∀ (s t : State) (ts : List Turn),
    ((∃ v : Word, s.turns = .host (.write (s.params.base + 0x10) 4 v) :: ts) ∨
      ∃ (i : Nat) (b : Byte), i < s.params.cap ∧
        s.turns = .host (.write (s.params.base + 0x10000 + i) 1 b) :: ts) →
    step s = .next t → s.SameOutcome t

/-! ### Completion -/

/-- R209: `complete(out)` of a result that fits `OBUF`: DONE, no error, `OLEN` and the read cells of `OBUF` the result;
the input stays. -/
def Obligations.CompleteShowsExactlyTheResult : Prop :=
  ∀ (s : State) (out : List Byte), out.length ≤ s.params.ocap →
    (s.complete out).DoneWith out ∧ (s.complete out).ilen = s.ilen ∧ (s.complete out).ibuf = s.ibuf

/-- R210: `raise` of an error: ERROR, its code and position, `OLEN` 0 and nothing readable in `OBUF`; nothing else is
written, so the input stays. -/
def Obligations.RaiseShowsExactlyTheError : Prop :=
  ∀ (s : State) (e : ErrorCause) (pos : Nat), pos < 2 ^ 32 →
    (s.raise e pos).FailedWith e pos ∧
      s.raise e pos = { s with seq := .error, err := some e, errpos := (s.raise e pos).errpos, olen := 0 }

/-! ### The commands -/

/-- R112, R120: ENC on an input that fits ends with `complete(enc(IBUF[0..ILEN)))`; on a longer one with LengthOverflow. -/
def Obligations.EncCompletesWithTheEncoding : Prop :=
  ∀ s : State,
    (s.ilen.toNat ≤ s.params.cap → ∃ t, exec .enc s = .next t ∧ t.DoneWith (enc s.input)) ∧
    (s.params.cap < s.ilen.toNat → ∃ t, exec .enc s = .next t ∧ t.FailedWith .lengthOverflow 0)

/-- R132: DEC on an input that fits ends with `raise InvalidCharacter(p)` when `dec` gives that, and otherwise with
`complete(dec(IBUF[0..ILEN)))`; on a longer one with LengthOverflow. -/
def Obligations.DecCompletesWithTheDecoding : Prop :=
  ∀ s : State,
    (s.ilen.toNat ≤ s.params.cap →
      (∀ b, dec s.input = .ok b → ∃ t, exec .dec s = .next t ∧ t.DoneWith b) ∧
      (∀ p, dec s.input = .error p → ∃ t, exec .dec s = .next t ∧ t.FailedWith .invalidCharacter p)) ∧
    (s.params.cap < s.ilen.toNat → ∃ t, exec .dec s = .next t ∧ t.FailedWith .lengthOverflow 0)

/-- R153, R155, R156: ENCC checks the version, then the length, and then ends with `complete(encc(VER, IBUF[0..ILEN)))`.
`Config.hash` is the parameter `H`, of which nothing is known; the hash core answers (R82; log 7). -/
def Obligations.EnccCompletesWithTheCheckedEncoding : Prop :=
  ∀ (s : State) (v : Nat),
    (255 < v → ∃ t, exec (.encc v) s = .next t ∧ t.FailedWith .invalidVersion 0) ∧
    (v ≤ 255 → s.params.cap < s.ilen.toNat →
      ∃ t, exec (.encc v) s = .next t ∧ t.FailedWith .lengthOverflow 0) ∧
    (v ≤ 255 → s.ilen.toNat ≤ s.params.cap → s.hashAnswers = true →
      ∃ t, exec (.encc v) s = .next t ∧ t.DoneWith (encc Config.hash (BitVec.ofNat 8 v) s.input))

/-- R161: DECC on an input that fits ends with InvalidCharacter(p) where `dec` gives that, with TooShort below 4 decoded
bytes, and otherwise, once the hash core has answered (R82; log 7), with `complete` of the data where all four checksum
bytes agree and with ChecksumMismatch where they do not; on a longer input with LengthOverflow. -/
def Obligations.DeccCompletesWithTheVerifiedData : Prop :=
  ∀ s : State,
    (s.params.cap < s.ilen.toNat → ∃ t, exec .decc s = .next t ∧ t.FailedWith .lengthOverflow 0) ∧
    (s.ilen.toNat ≤ s.params.cap →
      (∀ p, dec s.input = .error p → ∃ t, exec .decc s = .next t ∧ t.FailedWith .invalidCharacter p) ∧
      (∀ b, dec s.input = .ok b → b.length < 4 → ∃ t, exec .decc s = .next t ∧ t.FailedWith .tooShort 0) ∧
      ∀ data chk, dec s.input = .ok (data ++ chk) → chk.length = 4 → s.hashAnswers = true →
        ∃ t, exec .decc s = .next t ∧
          if ((Config.hash (Config.hash data).toList).toList).take 4 = chk then t.DoneWith data
          else t.FailedWith .checksumMismatch 0)

/-- R206, R208: with `ILEN > CAP` every command ends with LengthOverflow, code 6 (ENCC when its version is legal), whatever
is in `IBUF`, and writes nothing else. -/
def Obligations.LongInputFailsEveryCommand : Prop :=
  ∀ (s : State) (i : Instr), s.params.cap < s.ilen.toNat → (∀ v, i = .encc v → v ≤ 255) →
    exec i s = .next (s.raise .lengthOverflow 0) ∧ (s.raise .lengthOverflow 0).errCode = 6

/-- R153, R202: a version above 255 ends ENCC with InvalidVersion, code 2, before `ILEN` is looked at, before any hash request and
before any output. -/
def Obligations.LargeVersionFailsEncc : Prop :=
  ∀ (s : State) (v : Nat), 255 < v →
    exec (.encc v) s = .next (s.raise .invalidVersion 0) ∧ (s.raise .invalidVersion 0).errCode = 2

/-- R113, R133: the empty input is no error of ENC and DEC; they complete with an empty result. -/
def Obligations.EmptyInputCompletesEmpty : Prop :=
  ∀ s : State, s.ilen = 0 →
    exec .enc s = .next (s.complete []) ∧ exec .dec s = .next (s.complete []) ∧ (s.complete []).DoneWith []

/-- R162, R203: DECC on a valid string that decodes to fewer than 4 bytes (the empty one among them) ends with TooShort,
code 3, position 0, and no hash request is made; 4 decoded bytes or more are not too short. -/
def Obligations.ShortDecodingFailsDecc : Prop :=
  ∀ (s : State) (b : List Byte), s.ilen.toNat ≤ s.params.cap → dec s.input = .ok b →
    (b.length < 4 →
      ∃ t, exec .decc s = .next t ∧ t.FailedWith .tooShort 0 ∧ t.errCode = 3 ∧ t.hashRequests = s.hashRequests) ∧
    (4 ≤ b.length → s.err ≠ some .tooShort → ∀ t, exec .decc s = .next t → t.err ≠ some .tooShort) ∧
    (s.ilen = 0 → b = [])

/-- R110, R130, R152, R160, R79: what no command writes; and of `OBUF` a command writes the cells of its result alone,
none when it fails. -/
def Obligations.CommandsLeaveTheRestAlone : Prop :=
  ∀ (i : Instr) (s t : State), exec i s = .next t →
    s.CommandFrame t ∧ (∀ j, t.inputCell j = s.inputCell j) ∧
    (t.seq = .done → ∀ j, t.olen.toNat ≤ j → t.obuf.read? j = s.obuf.read? j) ∧
    (t.seq ≠ .done → t.obuf = s.obuf)

/-- R223: which command can end in which error. -/
def Obligations.CommandsRaiseOnlyTheirErrors : Prop :=
  ∀ (i : Instr) (s t : State) (e : ErrorCause), s.seq = .busy → exec i s = .next t → t.seq = .error →
    t.err = some e →
    match i with
    | .enc => e = .lengthOverflow
    | .dec => e = .invalidCharacter ∨ e = .lengthOverflow
    | .encc _ => e = .invalidVersion ∨ e = .lengthOverflow
    | .decc => e = .invalidCharacter ∨ e = .tooShort ∨ e = .checksumMismatch ∨ e = .lengthOverflow

/-- R167, R211: a command that fails exposes nothing: `OLEN` 0, every cell of `OBUF` reads 0x00, and the input is as at
issue. -/
def Obligations.FailedCommandsExposeNothing : Prop :=
  ∀ (i : Instr) (s t : State), s.seq = .busy → exec i s = .next t → t.seq = .error →
    (∃ e p, t.FailedWith e p) ∧ t.ibuf = s.ibuf ∧ t.ilen = s.ilen

/-- R242: while BUSY a turn of the engine completes the command, when the hash core answers (R82; logs 5, 7). -/
def Obligations.EngineTurnEndsBusy : Prop :=
  ∀ (s : State) (ts : List Turn), s.seq = .busy → s.hashAnswers = true → s.turns = .engine :: ts →
    ∃ t, step s = .next t ∧ (t.seq = .done ∨ t.seq = .error)

/-- R82: while the hash core does not answer, an ENCC that has passed its checks stays BUSY for ever: with nothing else
scheduled, no number of steps changes the state (log 7). That its hidden state stays too is the model's choice (log 8). -/
def Obligations.SilentHashCoreLeavesEnccBusy : Prop :=
  ∀ (s : State) (v n : Nat), s.seq = .busy → s.command? = some (.encc v) → v ≤ 255 →
    s.ilen.toNat ≤ s.params.cap → s.hashAnswers = false → s.turns = [] → core.run n s = .next s

/-- R82: the same of a DECC that has passed TooShort: its input decodes to 4 bytes or more (log 7). That its hidden state
stays too is the model's choice (log 8). -/
def Obligations.SilentHashCoreLeavesDeccBusy : Prop :=
  ∀ (s : State) (b : List Byte) (n : Nat), s.seq = .busy → s.command? = some .decc → s.ilen.toNat ≤ s.params.cap →
    dec s.input = .ok b → 4 ≤ b.length → s.hashAnswers = false → s.turns = [] → core.run n s = .next s

/-- R81: the requests of each command: none for ENC and DEC; for ENCC that completes, the versioned payload and then its
digest; for DECC that gets past TooShort, the data and then its digest. -/
def Obligations.HashRequestsOfEachCommand : Prop :=
  ∀ s t : State, s.seq = .busy →
    (exec .enc s = .next t → t.hashRequests = s.hashRequests) ∧
    (exec .dec s = .next t → t.hashRequests = s.hashRequests) ∧
    (∀ v, exec (.encc v) s = .next t → t.seq = .done →
      t.hashRequests = s.hashRequests ++ [BitVec.ofNat 8 v :: s.input,
        (Config.hash (BitVec.ofNat 8 v :: s.input)).toList]) ∧
    (∀ v, exec (.encc v) s = .next t → t.seq ≠ .done → t.hashRequests = s.hashRequests) ∧
    (∀ b, exec .decc s = .next t → dec s.input = .ok b → (t.seq = .done ∨ t.err = some .checksumMismatch) →
      s.err = none → t.hashRequests = s.hashRequests ++ [b.take (b.length - 4),
        (Config.hash (b.take (b.length - 4))).toList]) ∧
    (exec .decc s = .next t → t.seq ≠ .done → t.err ≠ some .checksumMismatch → t.hashRequests = s.hashRequests)

/-- R34: the outcome of a command depends on nothing but its word, `ILEN`, the cells `IBUF[0..min(ILEN, CAP))` and `H`:
two BUSY states that agree on these end alike, whatever else they hold. -/
def Obligations.OutcomeDependsOnOperandsAlone : Prop :=
  ∀ (i : Instr) (s t s' : State), s.SameOperands t → s.seq = .busy → t.seq = .busy →
    exec i s = .next s' → s'.seq ≠ .busy → ∃ t', exec i t = .next t' ∧ s'.SameOutcome t'

/-- R212, R34: issuing the same command again on the same input gives the same outcome. -/
def Obligations.RetryGivesTheSameOutcome : Prop :=
  ∀ (i : Instr) (s t : State) (w : Word), s.seq = .busy → exec i s = .next t → t.seq ≠ .busy →
    ∃ u, exec i (t.issue w) = .next u ∧ t.SameOutcome u

/-! ### The functions -/

/-- R121: `enc(x)` has exactly as many leading zero characters as `x` has leading zero bytes, consists of characters of
the alphabet, and is injective. -/
def Obligations.EncodingPreservesLeadingZeros : Prop :=
  (∀ x : List Byte, ((enc x).takeWhile (· = zeroChar)).length = (x.takeWhile (· = 0)).length) ∧
  (∀ (x : List Byte) (c : Byte), c ∈ enc x → ∃ d, d < 58 ∧ c = alpha d) ∧
  ∀ x y : List Byte, enc x = enc y → x = y

/-- R141: `dec` and `enc` are inverse to each other, for every byte sequence and for every string of valid characters,
and decoding preserves the count of leading zeros. -/
def Obligations.DecodingAndEncodingAreInverse : Prop :=
  (∀ x : List Byte, dec (enc x) = .ok x) ∧
  (∀ s b : List Byte, dec s = .ok b → (b.takeWhile (· = 0)).length = (s.takeWhile (· = zeroChar)).length) ∧
  ∀ s : List Byte, (∀ c ∈ s, ridx c ≠ none) → ∃ b, dec s = .ok b ∧ enc b = s

/-- R168: for every hash function, version and payload, `decc(encc(v, p)) = [v] ++ p`. -/
def Obligations.CheckedDecodingInvertsCheckedEncoding : Prop :=
  ∀ (H : HashFn) (v : Byte) (p : List Byte), decc H (encc H v p) = .ok (v :: p)

/-- R119, R140, R157: the lengths of results: an encoding has at most twice as many characters as bytes, a decoding no
more bytes than characters, a checked encoding at least 5 characters. -/
def Obligations.ResultLengthsAreBounded : Prop :=
  (∀ x : List Byte, (enc x).length ≤ 2 * x.length) ∧
  (∀ s b : List Byte, dec s = .ok b → b.length ≤ s.length) ∧
  ∀ (H : HashFn) (v : Byte) (p : List Byte),
    5 ≤ (encc H v p).length ∧ (encc H v p).length ≤ 2 * (p.length + 5)

/-- R240, R141 on the machine: ENC, then its output written back as the input, then DEC gives the bytes that were
encoded, when the output fits `IBUF`. The two commands run from any states that hold these inputs. -/
def Obligations.DecAfterEncRestoresTheInput : Prop :=
  ∀ s t u : State, s.ilen.toNat ≤ s.params.cap → exec .enc s = .next t → t.olen.toNat ≤ t.params.cap →
    u.params = t.params → u.ilen = t.olen → (∀ i, i < t.olen.toNat → u.inputCell i = t.outputCell i) →
    ∃ r, exec .dec u = .next r ∧ r.DoneWith s.input

/-- R168, R240 on the machine: ENCC v, then its output written back as the input, then DECC gives the version byte and
the payload, when the output fits `IBUF` and the hash core answers. -/
def Obligations.DeccAfterEnccRestoresThePayload : Prop :=
  ∀ (s t u : State) (v : Nat), v ≤ 255 → s.ilen.toNat ≤ s.params.cap → s.hashAnswers = true →
    exec (.encc v) s = .next t → t.olen.toNat ≤ t.params.cap → u.params = t.params → u.hashAnswers = true →
    u.ilen = t.olen → (∀ i, i < t.olen.toNat → u.inputCell i = t.outputCell i) →
    ∃ r, exec .decc u = .next r ∧ r.DoneWith (BitVec.ofNat 8 v :: s.input)

/-! ### Micro-operations -/

/-- R182: DIVMOD on `WBUF[first..WLEN)`, in both instances: the quotient is left in the same cells, each a legal element,
and the remainder is returned. The cells outside the range stay. -/
def Obligations.DivmodDividesWithRemainder : Prop :=
  ∀ (base divisor first : Nat) (w : Work), (base = 256 ∧ divisor = 58) ∨ (base = 58 ∧ divisor = 256) →
    first ≤ w.wlen → w.wlen ≤ w.wbuf.length → (∀ c ∈ w.number first, c.toNat < base) →
    let d := w.divmod first base divisor
    val base (nats (d.number first)) = val base (nats (w.number first)) / divisor ∧
    d.rem.toNat = val base (nats (w.number first)) % divisor ∧
    (∀ c ∈ d.number first, c.toNat < base) ∧ (d.number first).length = (w.number first).length ∧
    d.wbuf.take first = w.wbuf.take first ∧ d.wbuf.drop w.wlen = w.wbuf.drop w.wlen

/-- R185: in both instances `ACC` is the exact sum and at most 14847, and 14847 is reached. -/
def Obligations.AccumulatorBoundIsExact : Prop :=
  (∀ (base divisor : Nat) (rem cell : Byte), (base = 256 ∧ divisor = 58) ∨ (base = 58 ∧ divisor = 256) →
    rem.toNat < divisor → cell.toNat < base →
    (divAcc base rem cell).toNat = rem.toNat * base + cell.toNat ∧ (divAcc base rem cell).toNat ≤ 14847) ∧
  (divAcc 256 57 255).toNat = 14847 ∧ (divAcc 58 255 57).toNat = 14847

/-- R150, R151: CSUM leaves in `CS` the first 4 bytes of the hash of the hash, in digest order, in `DIG` the second
digest, and writes nothing else. -/
def Obligations.ChecksumIsFourBytesOfTheDoubleHash : Prop :=
  ∀ (H : HashFn) (m : List Byte) (w : Work),
    (w.csum H m).cs.toList = (H (H m).toList).toList.take 4 ∧ (w.csum H m).dig = H (H m).toList ∧
    w.csum H m = { w with dig := (w.csum H m).dig, cs := (w.csum H m).cs }

/-! ### Invariants of the machine -/

/-- The invariant holds at reset, for an instance with any parameters (R25, R26, R28, R32, R40 at R44). -/
def Obligations.ResetMeetsTheInvariant : Prop :=
  ∀ p : Params, (State.resetOf p).Inv

/-- R25, R26, R28, R29, R32, R40: the invariant is kept by every step from every state that meets it. -/
def Obligations.StepKeepsTheInvariant : Prop :=
  ∀ s t : State, s.Inv → step s = .next t → t.Inv

/-- R41: hidden state cannot be observed, directly or indirectly: two states that differ in hidden state alone still do so
after a step, whatever its turn is, and a read of the host gets the same response in both. -/
def Obligations.HiddenStateCannotBeObserved : Prop :=
  ∀ s t s' : State, s.Twins t → step s = .next s' →
    ∃ t', step t = .next t' ∧ s'.Twins t' ∧
      ∀ (addr n : Nat), (s'.transact (.read addr n)).responses = (t'.transact (.read addr n)).responses
end

