-- ==== Sys2Proof/Laws/Memory.lean ====
section
/-! SUPPORT. What memory operations do: read after write, and the canonical form is kept. -/

namespace Sys2Proof.Machine

/-- A cell reads as what was written to it. -/
@[simp] theorem Memory.read?_write_self (m : Memory) (i : Nat) (b : Byte) :
    (m.write i b).read? i = some b := by
  induction m with
  | nil => simp [Memory.write, Memory.read?]
  | cons c m ih =>
    obtain ⟨a, d⟩ := c
    simp only [Memory.write]
    split
    · simp [Memory.read?]
    · split
      · simp [Memory.read?]
      · simp only [Memory.read?]
        rw [if_neg (by omega), ih]

/-- A write leaves every other cell alone. -/
theorem Memory.read?_write_ne (m : Memory) {i j : Nat} (b : Byte) (h : j ≠ i) :
    (m.write i b).read? j = m.read? j := by
  induction m with
  | nil => simp [Memory.write, Memory.read?, Ne.symm h]
  | cons c m ih =>
    obtain ⟨a, d⟩ := c
    simp only [Memory.write]
    split
    · simp [Memory.read?, Ne.symm h]
    · split
      · rename_i he
        subst he
        simp [Memory.read?, Ne.symm h]
      · simp only [Memory.read?, ih]

/-- What one cell reads as after a write. -/
theorem Memory.read?_write (m : Memory) (i j : Nat) (b : Byte) :
    (m.write i b).read? j = if j = i then some b else m.read? j := by
  split
  · simp [*]
  · exact Memory.read?_write_ne m b ‹_›

/-- What one cell reads as after a sequence is written: the element that landed there, or as before. -/
theorem Memory.read?_writeSeq (bs : List Byte) (m : Memory) (i j : Nat) :
    (m.writeSeq i bs).read? j =
      if h : i ≤ j ∧ j < i + bs.length then some (bs[j - i]'(by omega)) else m.read? j := by
  induction bs generalizing m i with
  | nil => simp only [Memory.writeSeq, List.length_nil]; rw [dif_neg (by omega)]
  | cons b bs ih =>
    simp only [Memory.writeSeq, ih, Memory.read?_write, List.length_cons]
    by_cases hj : j = i
    · subst hj; simp
    · by_cases hin : i + 1 ≤ j ∧ j < i + 1 + bs.length
      · rw [dif_pos hin, dif_pos (by omega)]
        have : j - i = (j - (i + 1)) + 1 := by omega
        simp [this]
      · rw [dif_neg hin, if_neg hj, dif_neg (by omega)]

/-- The indices of a memory after a write: the old ones and the one written. -/
theorem Memory.mem_write {m : Memory} {i : Nat} {b : Byte} {c : Host.Cell} (h : c ∈ m.write i b) :
    c = (i, b) ∨ c ∈ m := by
  induction m with
  | nil => simpa [Memory.write] using h
  | cons e m ih =>
    obtain ⟨a, d⟩ := e
    simp only [Memory.write] at h
    split at h
    · simpa using h
    · split at h
      · simp only [List.mem_cons] at h ⊢; tauto
      · simp only [List.mem_cons] at h ⊢
        rcases h with h | h
        · exact .inr (.inl h)
        · rcases ih h with h | h <;> simp [h]

/-- A write below the capacity keeps the canonical form. -/
theorem Memory.wf_write {n : Nat} {m : Memory} (hm : m.wf n) {i : Nat} (b : Byte) (hi : i < n) :
    (m.write i b).wf n := by
  refine ⟨?_, fun c hc => ?_⟩
  · replace hm := hm.1
    induction m with
    | nil => simp [Memory.write]
    | cons e m ih =>
      obtain ⟨a, d⟩ := e
      simp only [List.map_cons, List.pairwise_cons, List.mem_map, forall_exists_index, and_imp] at hm
      simp only [Memory.write]
      split
      · rename_i hlt
        simp only [List.map_cons, List.pairwise_cons, List.mem_cons, List.mem_map]
        refine ⟨?_, ?_, hm.2⟩
        · rintro x (rfl | ⟨c, hc, rfl⟩)
          · exact hlt
          · exact lt_trans hlt (hm.1 _ c hc rfl)
        · rintro x ⟨c, hc, rfl⟩; exact hm.1 _ c hc rfl
      · split
        · rename_i heq
          subst heq
          simp only [List.map_cons, List.pairwise_cons, List.mem_map]
          refine ⟨?_, hm.2⟩
          rintro x ⟨c, hc, rfl⟩; exact hm.1 _ c hc rfl
        · simp only [List.map_cons, List.pairwise_cons, List.mem_map]
          refine ⟨?_, ih hm.2⟩
          rintro x ⟨c, hc, rfl⟩
          rcases Memory.mem_write hc with rfl | hc
          · simp only; omega
          · exact hm.1 _ c hc rfl
  · rcases Memory.mem_write hc with rfl | hc
    · exact hi
    · exact hm.2 c hc

/-- A sequence that fits the capacity keeps the canonical form. -/
theorem Memory.wf_writeSeq {n : Nat} (bs : List Byte) {m : Memory} (hm : m.wf n) (i : Nat)
    (hi : i + bs.length ≤ n) : (m.writeSeq i bs).wf n := by
  induction bs generalizing m i with
  | nil => exact hm
  | cons b bs ih =>
    simp only [List.length_cons] at hi
    exact ih (Memory.wf_write hm b (by omega)) (i + 1) (by omega)

/-- Nothing written is in canonical form, whatever the capacity. -/
theorem Memory.wf_nil (n : Nat) : Memory.wf n [] := by simp [Memory.wf]

end Sys2Proof.Machine
end

