-- ==== Sys2Proof/Laws/Numeral.lean ====
section
/-! SUPPORT. `val`, `lz` and `canon` (R15): the positional laws, and `canon` as the sequence without its leading zeros. -/

namespace Sys2Proof.Machine

@[simp] theorem val_nil (B : Nat) : val B [] = 0 := rfl

/-- One more element at the low end. -/
theorem val_append_singleton (B : Nat) (s : List Nat) (d : Nat) :
    val B (s ++ [d]) = val B s * B + d := by
  simp [val, List.foldl_append]

/-- `val` and Mathlib's little-endian `Nat.ofDigits` agree. -/
theorem val_eq_ofDigits (B : Nat) (s : List Nat) : val B s = Nat.ofDigits B s.reverse := by
  induction s using List.reverseRecOn with
  | nil => rfl
  | append_singleton s d ih =>
    rw [val_append_singleton, ih, List.reverse_append, List.reverse_singleton, List.singleton_append,
      Nat.ofDigits_cons]
    ring

/-- The value of a concatenation. -/
theorem val_append (B : Nat) (s t : List Nat) :
    val B (s ++ t) = val B s * B ^ t.length + val B t := by
  simp only [val_eq_ofDigits, List.reverse_append, Nat.ofDigits_append, List.length_reverse]
  ring

/-- The value with its most significant element taken off. -/
theorem val_cons (B d : Nat) (s : List Nat) : val B (d :: s) = d * B ^ s.length + val B s := by
  simpa [val] using val_append B [d] s

/-- A sequence of `n` elements below `B` has a value below `B^n`. -/
theorem val_lt {B : Nat} (s : List Nat) (hB : 1 < B) (h : ∀ d ∈ s, d < B) : val B s < B ^ s.length := by
  rw [val_eq_ofDigits, ← List.length_reverse]
  exact Nat.ofDigits_lt_base_pow_length hB (by simpa using h)

/-- Zeros in front do not change the value. -/
theorem val_replicate_zero_append (B k : Nat) (s : List Nat) :
    val B (List.replicate k 0 ++ s) = val B s := by
  induction k with
  | zero => rfl
  | succ k ih => rw [List.replicate_succ, List.cons_append, val_cons, ih]; simp

/-- A sequence is its leading zeros and the rest. -/
theorem eq_replicate_lz_append (s : List Nat) :
    s = List.replicate (lz s) 0 ++ s.dropWhile (· = 0) := by
  conv_lhs => rw [← List.takeWhile_append_dropWhile (p := (· = 0)) (l := s)]
  congr 1
  refine List.eq_replicate_iff.2 ⟨rfl, fun d hd => ?_⟩
  simpa using List.mem_takeWhile_imp hd

/-- The value without the leading zeros. -/
theorem val_dropWhile (B : Nat) (s : List Nat) : val B (s.dropWhile (· = 0)) = val B s := by
  conv_rhs => rw [eq_replicate_lz_append s, val_replicate_zero_append]

/-- The leading zeros of zeros in front of a sequence without leading zeros. -/
theorem lz_replicate_append (k : Nat) {s : List Nat} (h : s.head? ≠ some 0) :
    lz (List.replicate k 0 ++ s) = k := by
  induction k with
  | zero => cases s <;> simp_all [lz]
  | succ k ih => simpa [lz, List.replicate_succ] using ih

/-- Enough fuel gives the digits as Mathlib has them. -/
theorem digitsUp_eq_digits {B : Nat} (hB : 1 < B) (fuel n : Nat) (h : n ≤ fuel) :
    digitsUp B fuel n = Nat.digits B n := by
  induction fuel generalizing n with
  | zero => obtain rfl : n = 0 := by omega
            simp [digitsUp]
  | succ fuel ih =>
    simp only [digitsUp]
    split
    · simp [*]
    · have hn : 0 < n := by omega
      rw [Nat.digits_def' hB hn, ih _ (by have := Nat.div_lt_self hn hB; omega)]

/-- `canon` is Mathlib's digits, most significant first. -/
theorem canon_eq {B : Nat} (hB : 1 < B) (n : Nat) : canon B n = (Nat.digits B n).reverse := by
  rw [canon, digitsUp_eq_digits hB n n le_rfl]

/-- The canonical form has the value it is the form of. -/
theorem val_canon {B : Nat} (hB : 1 < B) (n : Nat) : val B (canon B n) = n := by
  rw [canon_eq hB, val_eq_ofDigits, List.reverse_reverse, Nat.ofDigits_digits]

/-- Its elements are below the base. -/
theorem canon_lt {B : Nat} (hB : 1 < B) {n d : Nat} (h : d ∈ canon B n) : d < B := by
  rw [canon_eq hB, List.mem_reverse] at h
  exact Nat.digits_lt_base hB h

/-- It has no leading zero. -/
theorem canon_head {B : Nat} (hB : 1 < B) (n : Nat) : (canon B n).head? ≠ some 0 := by
  rw [canon_eq hB, List.head?_reverse]
  intro h
  have hne : Nat.digits B n ≠ [] := by rintro h0; simp [h0] at h
  rw [List.getLast?_eq_getLast_of_ne_nil hne] at h
  have hn : n ≠ 0 := by rintro rfl; simp at hne
  exact Nat.getLast_digit_ne_zero B hn (by simpa using h)

/-- The canonical form of a value is the sequence without its leading zeros (R15). -/
theorem canon_val {B : Nat} (hB : 1 < B) (s : List Nat) (h : ∀ d ∈ s, d < B) :
    canon B (val B s) = s.dropWhile (· = 0) := by
  rw [← val_dropWhile, canon_eq hB, val_eq_ofDigits, Nat.digits_ofDigits B hB, List.reverse_reverse]
  · intro d hd
    exact h d ((List.dropWhile_sublist _).subset (by simpa using hd))
  · intro hne
    rw [List.getLast_reverse]
    have := List.head_dropWhile_not (p := (· = 0)) (l := s) (by simpa using hne)
    simpa using this

@[simp] theorem nats_nil : nats [] = [] := rfl
@[simp] theorem nats_cons (b : Byte) (s : List Byte) : nats (b :: s) = b.toNat :: nats s := rfl
@[simp] theorem nats_append (s t : List Byte) : nats (s ++ t) = nats s ++ nats t := by simp [nats]
@[simp] theorem nats_length (s : List Byte) : (nats s).length = s.length := by simp [nats]
@[simp] theorem nats_replicate (k : Nat) (b : Byte) : nats (List.replicate k b) = List.replicate k b.toNat := by
  simp [nats]

/-- Elements of bytes are below 256. -/
theorem nats_lt {s : List Byte} {d : Nat} (h : d ∈ nats s) : d < 256 := by
  obtain ⟨b, -, rfl⟩ := List.mem_map.1 h
  exact b.isLt

/-- Bytes are determined by their numbers. -/
theorem nats_injective {s t : List Byte} (h : nats s = nats t) : s = t :=
  List.map_injective_iff.2 (fun _ _ => BitVec.eq_of_toNat_eq) h

/-- Numbers below 256 survive the way through bytes. -/
theorem nats_map_ofNat {s : List Nat} (h : ∀ d ∈ s, d < 256) : nats (s.map (BitVec.ofNat 8)) = s := by
  rw [nats, List.map_map, List.map_congr_left (g := id), List.map_id]
  intro d hd
  simpa using h d hd

end Sys2Proof.Machine
end

