-- ==== Sys2Proof/Laws/LongDivision.lean ====
section
/-! SUPPORT. DIVMOD computes a division with remainder (R182), and the conversion computes the canonical form with the
leading zeros preserved (R118, R139). -/

namespace Sys2Proof.Machine

/-- The two radix pairs (R184): elements below `base`, divided by `divisor`. -/
structure RadixPair (base divisor : Nat) : Prop where
  base_le : base ≤ 256
  divisor_gt : 1 < divisor
  divisor_le : divisor ≤ 256
  bound : (divisor - 1) * base + (base - 1) ≤ 14847
  square : base ≤ divisor * divisor
  base_pos : 0 < base

/-- Encoder: bytes divided by 58. -/
theorem radix_encoder : RadixPair 256 58 := by constructor <;> decide

/-- Decoder: digits divided by 256. -/
theorem radix_decoder : RadixPair 58 256 := by constructor <;> decide

section

variable {base divisor : Nat}

/-- The accumulator is the exact sum (R185, R186): 32 bits never cut it. -/
theorem divAcc_toNat (hp : RadixPair base divisor) {rem cell : Byte}
    (hr : rem.toNat < divisor) (hc : cell.toNat < base) :
    (divAcc base rem cell).toNat = rem.toNat * base + cell.toNat ∧
      rem.toNat * base + cell.toNat ≤ 14847 := by
  have hle : rem.toNat * base + cell.toNat ≤ 14847 := by
    have h1 : rem.toNat * base ≤ (divisor - 1) * base := Nat.mul_le_mul_right _ (by omega)
    have := hp.bound; omega
  refine ⟨?_, hle⟩
  have hb : base % 2 ^ 32 = base := Nat.mod_eq_of_lt (by have := hp.base_le; omega)
  have hr' : rem.toNat % 2 ^ 32 = rem.toNat := Nat.mod_eq_of_lt (by have := rem.isLt; omega)
  have hc' : cell.toNat % 2 ^ 32 = cell.toNat := Nat.mod_eq_of_lt (by have := cell.isLt; omega)
  simp only [divAcc, BitVec.toNat_add, BitVec.toNat_mul, BitVec.toNat_setWidth, BitVec.toNat_ofNat, hb, hr', hc']
  rw [Nat.mod_eq_of_lt (a := rem.toNat * base) (by omega), Nat.mod_eq_of_lt (by omega)]

/-- The quotient cell is the exact quotient, and a legal element (R182). -/
theorem divQuot_toNat (hp : RadixPair base divisor) {acc : Word} (h : acc.toNat < divisor * base) :
    (divQuot divisor acc).toNat = acc.toNat / divisor ∧ acc.toNat / divisor < base := by
  have hq : acc.toNat / divisor < base := Nat.div_lt_of_lt_mul h
  refine ⟨?_, hq⟩
  have hd : divisor % 2 ^ 32 = divisor := Nat.mod_eq_of_lt (by have := hp.divisor_le; omega)
  simp only [divQuot, BitVec.toNat_setWidth, BitVec.toNat_udiv, BitVec.toNat_ofNat, hd]
  exact Nat.mod_eq_of_lt (by have := hp.base_le; omega)

/-- The remainder is the exact remainder, below the divisor (R187). -/
theorem divRem_toNat (hp : RadixPair base divisor) (acc : Word) :
    (divRem divisor acc).toNat = acc.toNat % divisor ∧ acc.toNat % divisor < divisor := by
  have hr : acc.toNat % divisor < divisor := Nat.mod_lt _ (by have := hp.divisor_gt; omega)
  refine ⟨?_, hr⟩
  have hd : divisor % 2 ^ 32 = divisor := Nat.mod_eq_of_lt (by have := hp.divisor_le; omega)
  simp only [divRem, BitVec.toNat_setWidth, BitVec.toNat_umod, BitVec.toNat_ofNat, hd]
  exact Nat.mod_eq_of_lt (by have := hp.divisor_le; omega)

/-- What the iterations of DIVMOD compute: with the incoming remainder in front, the cells are divided by the divisor. -/
theorem divCells_spec (hp : RadixPair base divisor) (cs : List Byte) (acc : Word) (rem : Byte)
    (hr : rem.toNat < divisor) (hc : ∀ c ∈ cs, c.toNat < base) :
    let d := divCells base divisor cs acc rem
    d.cells.length = cs.length ∧ (∀ c ∈ d.cells, c.toNat < base) ∧
      val base (nats d.cells) = (rem.toNat * base ^ cs.length + val base (nats cs)) / divisor ∧
      d.rem.toNat = (rem.toNat * base ^ cs.length + val base (nats cs)) % divisor ∧
      d.rem.toNat < divisor ∧ (acc.toNat ≤ 14847 → d.acc.toNat ≤ 14847) := by
  have hd0 : 0 < divisor := by have := hp.divisor_gt; omega
  induction cs generalizing acc rem with
  | nil => simp [divCells, Nat.div_eq_of_lt hr, Nat.mod_eq_of_lt hr, hr]
  | cons c cs ih =>
    simp only [List.mem_cons, forall_eq_or_imp] at hc
    obtain ⟨hacc, hacc14⟩ := divAcc_toNat hp hr hc.1
    have hlt : (divAcc base rem c).toNat < divisor * base := by
      rw [hacc]
      calc rem.toNat * base + c.toNat < rem.toNat * base + base := by omega
        _ = (rem.toNat + 1) * base := by ring
        _ ≤ divisor * base := Nat.mul_le_mul_right _ hr
    obtain ⟨hq, hqlt⟩ := divQuot_toNat hp hlt
    obtain ⟨hrem, hremlt⟩ := divRem_toNat hp (divAcc base rem c)
    obtain ⟨ihl, ihc, ihv, ihr, ihrlt, iha⟩ :=
      ih (divAcc base rem c) (divRem divisor (divAcc base rem c)) (by omega) hc.2
    have key : rem.toNat * base ^ (cs.length + 1) + (c.toNat * base ^ cs.length + val base (nats cs)) =
        (divRem divisor (divAcc base rem c)).toNat * base ^ cs.length + val base (nats cs) +
          divisor * ((divAcc base rem c).toNat / divisor * base ^ cs.length) := by
      rw [hrem, hacc]
      have := Nat.div_add_mod (rem.toNat * base + c.toNat) divisor
      calc _ = (rem.toNat * base + c.toNat) * base ^ cs.length + val base (nats cs) := by ring
        _ = (divisor * ((rem.toNat * base + c.toNat) / divisor) + (rem.toNat * base + c.toNat) % divisor) *
              base ^ cs.length + val base (nats cs) := by rw [this]
        _ = _ := by ring
    simp only [divCells, List.length_cons, nats_cons, val_cons, nats_length]
    refine ⟨by omega, ?_, ?_, ?_, ihrlt, fun _ => iha (by omega)⟩
    · intro x hx
      rcases List.mem_cons.1 hx with rfl | hx
      · omega
      · exact ihc x hx
    · rw [key, Nat.add_mul_div_left _ _ hd0, ihv, ihl, hq]; ring
    · rw [key, Nat.add_mul_mod_self_left, ihr]

/-- The first quotient cell is the quotient of the first cell. -/
theorem divCells_head (hp : RadixPair base divisor) (c : Byte) (cs : List Byte) (acc : Word)
    (hc : c.toNat < base) :
    ∃ q qs, (divCells base divisor (c :: cs) acc 0).cells = q :: qs ∧ q.toNat = c.toNat / divisor := by
  have h0 : (0 : Byte).toNat < divisor := by have := hp.divisor_gt; simp; omega
  obtain ⟨hacc, -⟩ := divAcc_toNat hp h0 hc
  refine ⟨_, _, rfl, ?_⟩
  have hacc' : (divAcc base 0 c).toNat = c.toNat := by simpa using hacc
  rw [(divQuot_toNat hp ?_).1, hacc']
  rw [hacc']
  calc c.toNat < base := hc
    _ ≤ divisor * base := Nat.le_mul_of_pos_left _ (by have := hp.divisor_gt; omega)

/-! ### Fields that the small operations leave alone -/

@[simp] theorem Work.storeAt_wlen (w : Work) (i : Nat) (bs : List Byte) : (w.storeAt i bs).wlen = w.wlen := rfl
@[simp] theorem Work.push_wbuf (w : Work) (v : Byte) : (w.push v).wbuf = w.wbuf := rfl
@[simp] theorem Work.push_wlen (w : Work) (v : Byte) : (w.push v).wlen = w.wlen := rfl
@[simp] theorem Work.push_z (w : Work) (v : Byte) : (w.push v).z = w.z := rfl
@[simp] theorem Work.push_start (w : Work) (v : Byte) : (w.push v).start = w.start := rfl
@[simp] theorem Work.push_epos (w : Work) (v : Byte) : (w.push v).epos = w.epos - 1 := rfl
@[simp] theorem Work.divmod_wlen (f b d : Nat) (w : Work) : (w.divmod f b d).wlen = w.wlen := rfl
@[simp] theorem Work.divmod_z (f b d : Nat) (w : Work) : (w.divmod f b d).z = w.z := rfl
@[simp] theorem Work.divmod_start (f b d : Nat) (w : Work) : (w.divmod f b d).start = w.start := rfl
@[simp] theorem Work.divmod_epos (f b d : Nat) (w : Work) : (w.divmod f b d).epos = w.epos := rfl
@[simp] theorem Work.divmod_ebuf (f b d : Nat) (w : Work) : (w.divmod f b d).ebuf = w.ebuf := rfl

/-- What a push does to the emitted part: the element stands in front of it. -/
theorem Work.emitted_push (w : Work) (v : Byte) {ocap : Nat} (h0 : 0 < w.epos) (h : w.epos ≤ ocap) :
    (w.push v).emitted ocap = v :: w.emitted ocap := by
  have hk : ocap - (w.epos - 1) = (ocap - w.epos) + 1 := by omega
  simp only [Work.emitted, Work.push_epos, hk, List.range'_succ, List.map_cons]
  rw [show w.epos - 1 + 1 = w.epos by omega]
  refine List.cons_eq_cons.2 ⟨by simp [Work.ecell, Work.push], List.map_congr_left fun i hi => ?_⟩
  have : w.epos ≤ i := by simp only [List.mem_range'_1] at hi; omega
  simp only [Work.ecell, Work.push]
  rw [Memory.read?_write_ne _ _ (by omega)]

/-- DIVMOD on `WBUF[first..WLEN)` (R182): the quotient stays, the remainder is returned, the other cells stay. -/
theorem Work.divmod_spec (hp : RadixPair base divisor) (w : Work) (first : Nat) (hf : first ≤ w.wlen)
    (hl : w.wlen ≤ w.wbuf.length) (hc : ∀ c ∈ w.number first, c.toNat < base) :
    let d := w.divmod first base divisor
    d.wbuf.length = w.wbuf.length ∧ d.wbuf.take first = w.wbuf.take first ∧
      d.wbuf.drop w.wlen = w.wbuf.drop w.wlen ∧ (∀ c ∈ d.number first, c.toNat < base) ∧
      val base (nats (d.number first)) = val base (nats (w.number first)) / divisor ∧
      d.rem.toNat = val base (nats (w.number first)) % divisor ∧ d.rem.toNat < divisor ∧
      (w.acc.toNat ≤ 14847 → d.acc.toNat ≤ 14847) ∧
      d.number first = (divCells base divisor (w.number first) w.acc 0).cells := by
  have h0 : (0 : Byte).toNat < divisor := by have := hp.divisor_gt; simp; omega
  obtain ⟨hlen, hcells, hval, hrem, hremlt, hacc⟩ := divCells_spec hp (w.number first) w.acc 0 h0 hc
  have hnum : (w.number first).length = w.wlen - first := by
    simp only [Work.number, List.length_drop, List.length_take]; omega
  have htake : (w.wbuf.take first).length = first := by simp; omega
  have hnumber : (w.divmod first base divisor).number first =
      (divCells base divisor (w.number first) w.acc 0).cells := by
    simp only [Work.number, Work.divmod] at hlen hnum ⊢
    rw [List.append_assoc, List.take_append, htake, List.drop_append]
    simp only [List.length_take, List.take_take]
    rw [List.drop_eq_nil_of_le (by simp only [List.length_take]; omega), List.nil_append,
      show first - min (min w.wlen first) w.wbuf.length = 0 by omega, List.drop_zero,
      List.take_append_of_le_length (by omega), List.take_of_length_le (by omega)]
  refine ⟨?_, ?_, ?_, ?_, ?_, ?_, hremlt, hacc, hnumber⟩
  · simp only [Work.divmod, List.length_append, htake, hlen, hnum, List.length_drop]; omega
  · simp only [Work.divmod]
    rw [List.append_assoc, List.take_append_of_le_length (by omega), List.take_of_length_le (by omega)]
  · simp only [Work.divmod]
    rw [List.drop_append, List.drop_eq_nil_of_le, List.nil_append]
    · rw [show w.wlen - (w.wbuf.take first ++ (divCells base divisor (w.number first) w.acc 0).cells).length = 0 by
        simp only [List.length_append, htake, hlen, hnum]; omega, List.drop_zero]
    · simp only [List.length_append, htake, hlen, hnum]; omega
  · rw [hnumber]; exact hcells
  · rw [hnumber]; simpa using hval
  · show (divCells base divisor (w.number first) w.acc 0).rem.toNat = _
    simpa using hrem

end

end Sys2Proof.Machine
end

