-- ==== Sys2Proof/Laws/Conversion.lean ====
section
/-! SUPPORT. The conversion that the commands share computes the canonical form with the leading zeros preserved (R118,
R139), stays inside its buffers (R79, R119, R140), and its loops end before their fuel does (log 21). -/

namespace Sys2Proof.Machine

section

variable {base divisor : Nat}

/-- `WBUF[START..WLEN)` with its first cell in front. -/
theorem Work.number_eq_cons (w : Work) (i : Nat) (hi : i < w.wlen) (hl : w.wlen ≤ w.wbuf.length) :
    w.number i = w.wcell i :: w.number (i + 1) := by
  have hlt : i < (w.wbuf.take w.wlen).length := by simp; omega
  simp only [Work.number]
  rw [List.drop_eq_getElem_cons hlt]
  congr 1
  rw [List.getElem_take, Work.wcell, List.getD_eq_getElem _ _ (by omega)]

theorem Work.number_self (w : Work) (i : Nat) (hi : w.wlen ≤ i) : w.number i = [] := by
  simp only [Work.number]
  exact List.drop_eq_nil_of_le (by simp; omega)

/-- What a pass leaves the loop to do: two passes for each element, less one when the first is below the divisor. -/
def Work.passesLeft (divisor : Nat) (w : Work) : Nat :=
  2 * (w.wlen - w.start) - if (w.wcell w.start).toNat < divisor then 1 else 0

/-- The loop's state between passes: the indices are in range, the cells are legal elements. -/
structure Work.Dividing (base ocap : Nat) (w : Work) : Prop where
  start_le : w.start ≤ w.wlen
  wlen_le : w.wlen ≤ w.wbuf.length
  cells : ∀ c ∈ w.number w.start, c.toNat < base
  epos_le : w.epos ≤ ocap

/-- One pass of the loop (R115, R136): it keeps the loop's state, emits the remainder, leaves the quotient, and gets
nearer the end. -/
theorem Work.pass_spec (hp : RadixPair base divisor) (emit : Byte → Byte) {ocap : Nat} (w : Work)
    (hw : w.Dividing base ocap) (hlt : w.start < w.wlen) (hroom : 0 < w.epos) :
    let p := w.pass base divisor emit
    p.Dividing base ocap ∧ p.wlen = w.wlen ∧ p.z = w.z ∧ p.wbuf.length = w.wbuf.length ∧
      p.epos = w.epos - 1 ∧ w.start ≤ p.start ∧
      (∃ r : Byte, r.toNat < divisor ∧ r.toNat = val base (nats (w.number w.start)) % divisor ∧
        p.emitted ocap = emit r :: w.emitted ocap) ∧
      val base (nats (p.number p.start)) = val base (nats (w.number w.start)) / divisor ∧
      p.passesLeft divisor < w.passesLeft divisor ∧ (w.acc.toNat ≤ 14847 → p.acc.toNat ≤ 14847) ∧
      (w.ebuf.wf ocap → p.ebuf.wf ocap) := by
  obtain ⟨hlen, -, -, hcells, hval, hrem, hremlt, hacc, hnum⟩ :=
    w.divmod_spec hp w.start hw.start_le hw.wlen_le hw.cells
  set d := w.divmod w.start base divisor with hd
  set e := d.push (emit d.rem) with he
  have hpe : w.pass base divisor emit = e.advance := rfl
  have hnumE : e.number w.start = d.number w.start := rfl
  have hstart : e.start = w.start := rfl
  have hwlen : e.wlen = w.wlen := rfl
  have hEl : e.wlen ≤ e.wbuf.length := by rw [hwlen]; show w.wlen ≤ d.wbuf.length; rw [hlen]; exact hw.wlen_le
  have hcons := e.number_eq_cons w.start (by rw [hwlen]; exact hlt) hEl
  have hwcons := w.number_eq_cons w.start hlt hw.wlen_le
  have hemit : e.emitted ocap = emit d.rem :: w.emitted ocap := by
    rw [he, Work.emitted_push d _ (by simpa [hd] using hroom) (by simpa [hd] using hw.epos_le)]
    rfl
  have hquot : (e.wcell w.start).toNat = (w.wcell w.start).toNat / divisor := by
    have hc0 : (w.wcell w.start).toNat < base := hw.cells _ (by rw [hwcons]; simp)
    obtain ⟨q, qs, hq, hqv⟩ := divCells_head hp (w.wcell w.start) (w.number (w.start + 1)) w.acc hc0
    rw [hwcons, hq] at hnum
    rw [hnumE, hnum] at hcons
    rw [← (List.cons_eq_cons.1 hcons).1, hqv]
  have hcellsE : ∀ c ∈ e.number w.start, c.toNat < base := hcells
  have hd1 := hp.divisor_gt
  have hfacts : e.epos = w.epos - 1 ∧ e.z = w.z ∧ e.wbuf.length = w.wbuf.length ∧
      (w.acc.toNat ≤ 14847 → e.acc.toNat ≤ 14847) := ⟨rfl, rfl, hlen, hacc⟩
  have hwf : w.ebuf.wf ocap → e.ebuf.wf ocap := fun h =>
    Memory.wf_write h _ (by have := hw.epos_le; simp only [hd, Work.divmod_epos]; omega)
  have hvalE : val base (nats (e.number w.start)) = val base (nats (w.number w.start)) / divisor := hval
  rw [hpe]
  by_cases hz : e.wcell e.start = 0
  · have hadv : e.advance = { e with start := w.start + 1 } := by
      simp only [Work.advance]; rw [if_pos hz, hstart]
    rw [hadv]
    have hz' : e.wcell w.start = 0 := hz
    have hsmall : (w.wcell w.start).toNat < divisor := by
      rw [hz'] at hquot
      rcases (Nat.div_eq_zero_iff).1 (by simpa using hquot.symm) with h | h <;> omega
    have hcells1 : ∀ c ∈ e.number (w.start + 1), c.toNat < base := fun c hc =>
      hcellsE c (by rw [hcons]; exact List.mem_cons_of_mem _ hc)
    refine ⟨⟨?_, hEl, hcells1, ?_⟩, rfl, rfl, hlen, rfl, Nat.le_succ _,
      ⟨d.rem, hremlt, hrem, hemit⟩, ?_, ?_, hacc, hwf⟩
    · show w.start + 1 ≤ w.wlen; omega
    · show w.epos - 1 ≤ ocap; have := hw.epos_le; omega
    · show val base (nats (e.number (w.start + 1))) = _
      rw [← hvalE, hcons, hz', nats_cons, val_cons]; simp
    · simp only [Work.passesLeft]
      rw [if_pos hsmall]
      show 2 * (w.wlen - (w.start + 1)) - _ < _
      omega
  · have hadv : e.advance = e := by simp only [Work.advance]; rw [if_neg hz]
    rw [hadv]
    have hbig : ¬ (w.wcell w.start).toNat < divisor := fun h => hz <| by
      apply BitVec.eq_of_toNat_eq
      rw [hstart, hquot, Nat.div_eq_of_lt h]; rfl
    have hq2 : (e.wcell w.start).toNat < divisor := by
      rw [hquot]
      have hc0 : (w.wcell w.start).toNat < base := hw.cells _ (by rw [hwcons]; simp)
      exact Nat.div_lt_of_lt_mul (lt_of_lt_of_le hc0 hp.square)
    refine ⟨⟨hw.start_le, hEl, hcellsE, ?_⟩, rfl, rfl, hlen, rfl, le_rfl,
      ⟨d.rem, hremlt, hrem, hemit⟩, hvalE, ?_, hacc, hwf⟩
    · show w.epos - 1 ≤ ocap; have := hw.epos_le; omega
    · simp only [Work.passesLeft]
      rw [if_neg hbig, hstart, if_pos hq2, hwlen]
      omega

/-- The loop (R118, R139): it ends with the number at zero, and the emitted elements, in front of what was emitted
before, carry the value of the number. -/
theorem Work.passes_spec (hp : RadixPair base divisor) (emit : Byte → Byte) {ocap : Nat} (fuel : Nat) (w : Work)
    (hw : w.Dividing base ocap) (hfuel : w.passesLeft divisor ≤ fuel) (hroom : fuel ≤ w.epos) :
    let p := Work.passes base divisor emit fuel w
    p.Dividing base ocap ∧ p.start = p.wlen ∧ p.wlen = w.wlen ∧ p.z = w.z ∧ p.wbuf.length = w.wbuf.length ∧
      w.start ≤ p.start ∧
      (∃ e : List Byte, e.length ≤ fuel ∧ p.epos = w.epos - e.length ∧ (∀ r ∈ e, r.toNat < divisor) ∧
        val divisor (nats e) = val base (nats (w.number w.start)) ∧
        p.emitted ocap = e.map emit ++ w.emitted ocap) ∧
      (w.acc.toNat ≤ 14847 → p.acc.toNat ≤ 14847) ∧ (w.ebuf.wf ocap → p.ebuf.wf ocap) := by
  induction fuel generalizing w with
  | zero =>
    have hend : w.start = w.wlen := by
      have := hw.start_le
      simp only [Work.passesLeft] at hfuel
      split at hfuel <;> omega
    refine ⟨hw, hend, rfl, rfl, rfl, le_rfl, ⟨[], by simp, by simp [Work.passes], by simp, ?_, by simp [Work.passes]⟩, id, id⟩
    rw [Work.number_self _ _ (by omega)]; simp
  | succ fuel ih =>
    by_cases hlt : w.start < w.wlen
    · obtain ⟨hpd, hpw, hpz, hpl, hpe, hps, ⟨r, hr, hrv, hre⟩, hpv, hpm, hpa, hpwf⟩ :=
        w.pass_spec hp emit hw hlt (by omega)
      obtain ⟨h1, h2, h3, h4, h5, h6, ⟨e, hel, hep, her, hev, hee⟩, h8, h9⟩ :=
        ih (w.pass base divisor emit) hpd (by omega) (by omega)
      have hstep : Work.passes base divisor emit (fuel + 1) w =
          Work.passes base divisor emit fuel (w.pass base divisor emit) := by
        simp only [Work.passes]; rw [if_pos hlt]
      rw [hstep]
      refine ⟨h1, h2, h3.trans hpw, h4.trans hpz, h5.trans hpl, hps.trans h6, ⟨e ++ [r], ?_, ?_, ?_, ?_, ?_⟩,
        fun h => h8 (hpa h), fun h => h9 (hpwf h)⟩
      · simp; omega
      · rw [hep, hpe]; simp; omega
      · intro x hx
        rcases List.mem_append.1 hx with hx | hx
        · exact her x hx
        · simp only [List.mem_singleton] at hx; rw [hx]; exact hr
      · rw [nats_append, nats_cons, nats_nil, val_append_singleton, hev, hpv, hrv]
        rw [Nat.mul_comm]; exact Nat.div_add_mod _ _
      · rw [hee, hre]; simp
    · have hend : w.start = w.wlen := by have := hw.start_le; omega
      have hstep : Work.passes base divisor emit (fuel + 1) w = w := by
        simp only [Work.passes]; rw [if_neg hlt]
      rw [hstep]
      refine ⟨hw, hend, rfl, rfl, rfl, le_rfl, ⟨[], by simp, by simp, by simp, ?_, by simp⟩, id, id⟩
      rw [Work.number_self _ _ (by omega)]; simp

/-- The count of the leading zeros from index `w.z` on (R114, R135). -/
theorem Work.countZeros_spec (fuel : Nat) (w : Work) (hl : w.wlen ≤ w.wbuf.length) (hz : w.z ≤ w.wlen)
    (hfuel : w.wlen - w.z ≤ fuel) :
    Work.countZeros fuel w = { w with z := w.z + lz (nats (w.number w.z)) } := by
  induction fuel generalizing w with
  | zero =>
    rw [Work.number_self _ _ (by omega)]; simp [Work.countZeros, lz]
  | succ fuel ih =>
    simp only [Work.countZeros]
    by_cases hlt : w.z < w.wlen
    · rw [w.number_eq_cons _ hlt hl]
      by_cases h0 : w.wcell w.z = 0
      · rw [if_pos ⟨hlt, h0⟩, ih { w with z := w.z + 1 } hl (by simpa using hlt) (by simp only; omega)]
        have : lz (nats (w.wcell w.z :: w.number (w.z + 1))) = lz (nats (w.number (w.z + 1))) + 1 := by
          simp [h0, lz]
        rw [this]
        show ({ w with z := w.z + 1 + lz (nats (w.number (w.z + 1))) } : Work) = _
        congr 1; omega
      · rw [if_neg (fun h => h0 h.2)]
        have : lz (nats (w.wcell w.z :: w.number (w.z + 1))) = 0 := by
          have : (w.wcell w.z).toNat ≠ 0 := fun h => h0 (BitVec.eq_of_toNat_eq (by simpa using h))
          simp [lz, this]
        rw [this]; rfl
    · rw [if_neg (fun h => hlt h.1), Work.number_self _ _ (by omega)]; simp [lz]

/-- The strip (R117, R137): the zero elements at the front of the emitted part go. -/
theorem Work.strip_spec (ocap : Nat) (zero : Byte) (fuel : Nat) (w : Work) (he : w.epos ≤ ocap)
    (hfuel : ocap - w.epos ≤ fuel) :
    ∃ k, Work.strip ocap zero fuel w = { w with epos := w.epos + k } ∧ w.epos + k ≤ ocap ∧
      ({ w with epos := w.epos + k } : Work).emitted ocap = (w.emitted ocap).dropWhile (· = zero) := by
  induction fuel generalizing w with
  | zero =>
    refine ⟨0, rfl, by omega, ?_⟩
    have : w.emitted ocap = [] := by simp [Work.emitted, show ocap - w.epos = 0 by omega]
    show w.emitted ocap = _
    rw [this]; rfl
  | succ fuel ih =>
    simp only [Work.strip]
    by_cases hlt : w.epos < ocap
    · have hcons : w.emitted ocap = w.ecell w.epos :: ({ w with epos := w.epos + 1 } : Work).emitted ocap := by
        simp only [Work.emitted]
        rw [show ocap - w.epos = (ocap - (w.epos + 1)) + 1 by omega, List.range'_succ, List.map_cons]
        rfl
      by_cases h0 : w.ecell w.epos = zero
      · obtain ⟨k, hk, hle, hemit⟩ := ih { w with epos := w.epos + 1 } hlt (by simp only; omega)
        refine ⟨k + 1, ?_, by simp only at hle; omega, ?_⟩
        · rw [if_pos ⟨hlt, h0⟩, hk]
          show ({ w with epos := w.epos + 1 + k } : Work) = _
          congr 1; omega
        · rw [hcons, List.dropWhile_cons_of_pos (by simpa using h0), ← hemit]
          show ({ w with epos := w.epos + (k + 1) } : Work).emitted ocap =
            ({ w with epos := w.epos + 1 + k } : Work).emitted ocap
          rw [show w.epos + (k + 1) = w.epos + 1 + k by omega]
      · refine ⟨0, by rw [if_neg (fun h => h0 h.2)]; rfl, by omega, ?_⟩
        show w.emitted ocap = _
        rw [hcons, List.dropWhile_cons_of_neg (by simpa using h0)]
    · refine ⟨0, by rw [if_neg (fun h => hlt h.1)]; rfl, by omega, ?_⟩
      have : w.emitted ocap = [] := by simp [Work.emitted, show ocap - w.epos = 0 by omega]
      show w.emitted ocap = _
      rw [this]; rfl

/-- The prepend (R117, R137): `k` zero elements stand in front of the emitted part. -/
theorem Work.prepend_spec (zero : Byte) {ocap : Nat} (k : Nat) (w : Work) (hk : k ≤ w.epos) (he : w.epos ≤ ocap) :
    let p := Work.prepend zero k w
    p.emitted ocap = List.replicate k zero ++ w.emitted ocap ∧ p.epos = w.epos - k ∧ p.wbuf = w.wbuf ∧
      p.wlen = w.wlen ∧ p.z = w.z ∧ p.start = w.start ∧ p.acc = w.acc ∧ (w.ebuf.wf ocap → p.ebuf.wf ocap) := by
  induction k generalizing w with
  | zero => exact ⟨by simp [Work.prepend], rfl, rfl, rfl, rfl, rfl, rfl, id⟩
  | succ k ih =>
    obtain ⟨h1, h2, h3, h4, h5, h6, h7, h8⟩ := ih (w.push zero) (by simp; omega) (by simp; omega)
    refine ⟨?_, ?_, h3, h4, h5, h6, h7, fun h => h8 (Memory.wf_write h _ (by omega))⟩
    · show (Work.prepend zero k (w.push zero)).emitted ocap = _
      rw [h1, Work.emitted_push w _ (by omega) he, List.replicate_succ']
      simp
    · show (Work.prepend zero k (w.push zero)).epos = _
      rw [h2]; simp; omega

/-- Elements kept by a `dropWhile` through a map that sends exactly 0 to the zero element. -/
theorem dropWhile_map_emit (emit : Byte → Byte) (zero : Byte) (e : List Byte)
    (h : ∀ r ∈ e, emit r = zero ↔ r = 0) :
    (e.map emit).dropWhile (· = zero) = (e.dropWhile (· = 0)).map emit := by
  induction e with
  | nil => rfl
  | cons r e ih =>
    simp only [List.mem_cons, forall_eq_or_imp] at h
    by_cases hr : r = 0
    · rw [List.map_cons, List.dropWhile_cons_of_pos (by simpa using h.1.2 hr),
        List.dropWhile_cons_of_pos (by simpa using hr), ih h.2]
    · rw [List.map_cons, List.dropWhile_cons_of_neg (by simpa using fun hz => hr (h.1.1 hz)),
        List.dropWhile_cons_of_neg (by simpa using hr)]
      rfl

/-- Leading zero bytes are leading zero numbers. -/
theorem nats_dropWhile (e : List Byte) : nats (e.dropWhile (· = 0)) = (nats e).dropWhile (· = 0) := by
  induction e with
  | nil => rfl
  | cons r e ih =>
    by_cases hr : r = 0
    · rw [List.dropWhile_cons_of_pos (by simpa using hr), nats_cons,
        List.dropWhile_cons_of_pos (by simp [hr]), ih]
    · have : r.toNat ≠ 0 := fun h => hr (BitVec.eq_of_toNat_eq (by simpa using h))
      rw [List.dropWhile_cons_of_neg (by simpa using hr), nats_cons,
        List.dropWhile_cons_of_neg (by simpa using this)]

/-- The conversion of `WBUF[0..WLEN)` (R118, R139): as many zero elements as the number has leading zeros, then the
canonical form of its value, each element mapped. It stays inside `WBUF` and `EBUF`. -/
theorem Work.convert_spec (hp : RadixPair base divisor) (emit : Byte → Byte) (zero : Byte) {ocap : Nat} (w : Work)
    (hl : w.wlen ≤ w.wbuf.length) (hocap : 2 * w.wlen ≤ ocap) (hcells : ∀ c ∈ w.number 0, c.toNat < base)
    (hemit : ∀ r : Byte, r.toNat < divisor → (emit r = zero ↔ r = 0)) :
    let p := w.convert base divisor emit zero ocap
    p.emitted ocap = List.replicate (lz (nats (w.number 0))) zero ++
        (canon divisor (val base (nats (w.number 0)))).map (fun d => emit (BitVec.ofNat 8 d)) ∧
      p.epos ≤ ocap ∧ p.wbuf.length = w.wbuf.length ∧ p.wlen = w.wlen ∧ p.z ≤ p.start ∧ p.start = p.wlen ∧
      (w.acc.toNat ≤ 14847 → p.acc.toNat ≤ 14847) ∧ (w.ebuf.wf ocap → p.ebuf.wf ocap) := by
  have hcount := Work.countZeros_spec w.wlen { w with z := 0 } hl (Nat.zero_le _) (by simp)
  simp only [Nat.zero_add] at hcount
  change Work.countZeros w.wlen { w with z := 0 } = { w with z := lz (nats (w.number 0)) } at hcount
  set k := lz (nats (w.number 0)) with hk
  have hnum0 : (w.number 0).length = w.wlen := by simp only [Work.number, List.drop_zero, List.length_take]; omega
  have hkle : k ≤ w.wlen := by
    rw [hk, ← hnum0, ← nats_length, lz]; exact (List.takeWhile_sublist _).length_le
  have hready : w.ready ocap = { w with z := k, epos := ocap, start := k } := by
    simp only [Work.ready]; rw [hcount]
  set r := w.ready ocap with hr
  have hrnum : r.number k = w.number k := by rw [hready]; rfl
  have hdropk : w.number k = (w.number 0).drop k := by simp [Work.number]
  have hval : val base (nats (r.number r.start)) = val base (nats (w.number 0)) := by
    have hrs : r.start = k := by rw [hready]
    rw [hrs, hrnum, hdropk]
    have h1 : nats ((w.number 0).drop k) = (nats (w.number 0)).drop k := by simp [nats]
    have h2 := eq_replicate_lz_append (nats (w.number 0))
    rw [h1]
    conv_rhs => rw [h2, val_replicate_zero_append]
    conv_lhs => rw [h2]
    rw [← hk, List.drop_left' (by simp)]
  have hdiv : r.Dividing base ocap := by
    rw [hready]
    refine ⟨hkle, hl, fun c hc => hcells c ?_, le_rfl⟩
    have hc' : c ∈ w.number k := hc
    rw [hdropk] at hc'
    exact List.mem_of_mem_drop hc'
  have hleft : r.passesLeft divisor ≤ 2 * (r.wlen - r.start) := by simp [Work.passesLeft]
  have hroom : 2 * (r.wlen - r.start) ≤ r.epos := by
    rw [hready]; simp only; omega
  obtain ⟨hpd, hpend, hpw, hpz, hpl, hps, ⟨e, hel, hep, her, hev, hee⟩, hpa, hpwf⟩ :=
    Work.passes_spec hp emit (2 * (r.wlen - r.start)) r hdiv hleft hroom
  set d := Work.passes base divisor emit (2 * (r.wlen - r.start)) r with hd
  have hrempty : r.emitted ocap = [] := by rw [hready]; simp [Work.emitted]
  rw [hrempty, List.append_nil] at hee
  obtain ⟨j, hstrip, hsle, hsemit⟩ := Work.strip_spec ocap zero (ocap - d.epos) d hpd.epos_le le_rfl
  have hdz : d.z = k := by rw [hpz, hready]
  have hdw : d.wlen = w.wlen := by rw [hpw, hready]
  have hepos : k ≤ d.epos + j := by
    have h1 : r.wlen - r.start = w.wlen - k := by rw [hready]
    have h2 : r.epos = ocap := by rw [hready]
    rw [h1] at hel; rw [h2] at hep
    omega
  obtain ⟨h1, h2, h3, h4, h5, h6, h7, h8⟩ :=
    Work.prepend_spec zero (ocap := ocap) k { d with epos := d.epos + j } hepos hsle
  have hconv : w.convert base divisor emit zero ocap =
      Work.prepend zero k { d with epos := d.epos + j } := by
    simp only [Work.convert]
    rw [← hr, ← hd, hstrip]
    simp only [hdz]
  rw [hconv]
  refine ⟨?_, by rw [h2]; simp only; omega, ?_, ?_, ?_, ?_, ?_, fun h => h8 (hpwf ?_)⟩
  · rw [h1, hsemit, hee, dropWhile_map_emit emit zero e (fun x hx => hemit x (her x hx))]
    congr 1
    have hd256 : ∀ x ∈ nats e, x < divisor := by
      intro x hx
      obtain ⟨b, hb, rfl⟩ := List.mem_map.1 hx
      exact her b hb
    have hcanon : canon divisor (val base (nats (w.number 0))) = nats (e.dropWhile (· = 0)) := by
      rw [← hval, ← hev, canon_val hp.divisor_gt _ hd256, nats_dropWhile]
    rw [hcanon, nats, List.map_map]
    refine List.map_congr_left fun b _ => ?_
    simp
  · rw [h3]; show d.wbuf.length = _; rw [hpl, hready]
  · rw [h4]; exact hdw
  · rw [h5, h6]; show d.z ≤ d.start; rw [hdz, hpend, hdw]; exact hkle
  · rw [h6, h4]; exact hpend
  · intro h; rw [h7]; exact hpa (by rw [hready]; exact h)
  · rw [hready]; exact h

end

end Sys2Proof.Machine
end

