-- ==== Sys2Proof/Laws/Tables.lean ====
section
/-! SUPPORT. `ALPHA` and `RIDX` are inverse to each other (R31). -/

namespace Sys2Proof.Machine

/-- `RIDX(ALPHA[d]) = d` for all 58 digits. -/
theorem ridx_alpha {d : Nat} (h : d < 58) : ridx (alpha d) = some d := by
  have all : ∀ d : Fin 58, ridx (alpha d) = some d.val := by decide +kernel
  exact all ⟨d, h⟩

/-- What a valid character is: the code of its digit. -/
theorem ridx_eq_some {c : Byte} {d : Nat} (h : ridx c = some d) : d < 58 ∧ alpha d = c := by
  have hf := (List.findIdx?_eq_some_iff_getElem).1 h
  obtain ⟨hd, heq, -⟩ := hf
  have hlen : alphaTable.length = 58 := rfl
  refine ⟨hlen ▸ hd, ?_⟩
  rw [alpha, List.getD_eq_getElem _ _ hd]
  simpa using heq

/-- The zero character is the character of digit 0. -/
theorem alpha_zero : alpha 0 = zeroChar := rfl

/-- Only digit 0 has the zero character. -/
theorem alpha_eq_zeroChar {d : Nat} (h : d < 58) : alpha d = zeroChar ↔ d = 0 := by
  have all : ∀ d : Fin 58, alpha d = zeroChar ↔ d.val = 0 := by decide +kernel
  exact all ⟨d, h⟩

end Sys2Proof.Machine
end

