-- ==== Sys2Proof/Laws/Codec.lean ====
section
/-! SUPPORT. What the reference sequences leave (R118, R139, R156, R161): the functional definitions, inside the hidden
buffers. -/

namespace Sys2Proof.Machine

/-- What a sequence leaves of the hidden state, as the invariant sees it: `WBUF` keeps its size, the indices are in
range, `ACC` keeps its bound, `EBUF` keeps its form; the latches stay. -/
structure Work.Ran (ocap : Nat) (w p : Work) : Prop where
  wbuf : p.wbuf.length = w.wbuf.length
  epos : p.epos ≤ ocap
  z : p.z ≤ p.start
  start : p.start = p.wlen
  acc : w.acc.toNat ≤ 14847 → p.acc.toNat ≤ 14847
  ebuf : w.ebuf.wf ocap → p.ebuf.wf ocap

@[simp] theorem Work.storeAt_acc (w : Work) (i : Nat) (bs : List Byte) : (w.storeAt i bs).acc = w.acc := rfl
@[simp] theorem Work.storeAt_ebuf (w : Work) (i : Nat) (bs : List Byte) : (w.storeAt i bs).ebuf = w.ebuf := rfl

/-- `WBUF` keeps its size under a store that fits. -/
theorem Work.storeAt_length (w : Work) (i : Nat) (bs : List Byte) (h : i + bs.length ≤ w.wbuf.length) :
    (w.storeAt i bs).wbuf.length = w.wbuf.length := by
  simp only [Work.storeAt, List.length_append, List.length_take, List.length_drop]; omega

/-- The number in `WBUF` after the copy of a whole input. -/
theorem Work.number_store_zero (w : Work) (bs : List Byte) :
    ({ w.storeAt 0 bs with wlen := bs.length } : Work).number 0 = bs := by
  simp [Work.number, Work.storeAt]

/-- The conversion to characters, for any number in `WBUF` (R118). -/
theorem Work.toChars_spec (ocap : Nat) (w : Work) (hl : w.wlen ≤ w.wbuf.length) (hocap : 2 * w.wlen ≤ ocap) :
    (w.toChars ocap).emitted ocap = enc (w.number 0) ∧ Work.Ran ocap w (w.toChars ocap) ∧
      (w.toChars ocap).wlen = w.wlen := by
  have hemit : ∀ r : Byte, r.toNat < 58 → (alpha r.toNat = zeroChar ↔ r = 0) := fun r hr => by
    rw [alpha_eq_zeroChar hr]
    exact ⟨fun h => BitVec.eq_of_toNat_eq (by simpa using h), fun h => by rw [h]; rfl⟩
  obtain ⟨h1, h2, h3, h4, h5, h6, h7, h8⟩ := Work.convert_spec radix_encoder (fun r => alpha r.toNat) zeroChar
    w hl hocap (fun c _ => c.isLt) hemit
  refine ⟨h1.trans ?_, ⟨h3, h2, h5, h6, h7, h8⟩, h4⟩
  rw [enc]
  congr 1
  refine List.map_congr_left fun d hd => ?_
  have : d < 58 := canon_lt (by decide) hd
  simp only [BitVec.toNat_ofNat]
  rw [Nat.mod_eq_of_lt (by omega)]

/-- The ENC sequence computes `enc` (R118). -/
theorem Work.encodeBytes_spec (ocap : Nat) (x : List Byte) (w : Work) (hocap : 2 * x.length ≤ ocap) :
    (w.encodeBytes ocap x).emitted ocap = enc x ∧
      (x.length ≤ w.wbuf.length → Work.Ran ocap w (w.encodeBytes ocap x)) ∧
      (w.encodeBytes ocap x).wlen = x.length := by
  obtain ⟨h1, h2, h3⟩ := Work.toChars_spec ocap { w.storeAt 0 x with wlen := x.length }
    (by simp [Work.storeAt]) hocap
  rw [Work.number_store_zero] at h1
  refine ⟨h1, fun hfit => ?_, h3⟩
  exact ⟨h2.wbuf.trans (Work.storeAt_length w 0 x (by omega)), h2.epos, h2.z, h2.start, h2.acc, h2.ebuf⟩

/-- The validation loop (R134): on a valid string the digits, on another the least invalid index. -/
theorem scanDigits_spec (i : Nat) (x : List Byte) :
    (firstInvalid x = none → scanDigits i x = ((digitsOf x).map (BitVec.ofNat 8), none)) ∧
      (∀ p, firstInvalid x = some p → ∃ ds, scanDigits i x = (ds, some (i + p)) ∧ ds.length ≤ x.length) := by
  induction x generalizing i with
  | nil => exact ⟨fun _ => rfl, fun p h => by simp [firstInvalid] at h⟩
  | cons c cs ih =>
    cases hc : ridx c with
    | none =>
      refine ⟨fun h => ?_, fun p h => ?_⟩
      · simp [firstInvalid, List.findIdx?_cons, hc] at h
      · have : p = 0 := by simpa [firstInvalid, List.findIdx?_cons, hc, eq_comm] using h
        subst this
        exact ⟨[], by simp [scanDigits, hc], by simp⟩
    | some d =>
      have hfi : firstInvalid (c :: cs) = (firstInvalid cs).map (· + 1) := by
        simp [firstInvalid, List.findIdx?_cons, hc]
      refine ⟨fun h => ?_, fun p h => ?_⟩
      · rw [hfi, Option.map_eq_none_iff] at h
        simp [scanDigits, hc, (ih (i + 1)).1 h, digitsOf]
      · rw [hfi, Option.map_eq_some_iff] at h
        obtain ⟨q, hq, rfl⟩ := h
        obtain ⟨ds, hds, hl⟩ := (ih (i + 1)).2 q hq
        refine ⟨BitVec.ofNat 8 d :: ds, ?_, by simpa using hl⟩
        simp only [scanDigits, hc, hds]
        congr 2; omega

/-- The digits of a string are below 58. -/
theorem digitsOf_lt {s : List Byte} {d : Nat} (h : d ∈ digitsOf s) : d < 58 := by
  obtain ⟨c, -, rfl⟩ := List.mem_map.1 h
  cases hc : ridx c with
  | none => simp
  | some d => exact (ridx_eq_some hc).1

@[simp] theorem digitsOf_length (s : List Byte) : (digitsOf s).length = s.length := by simp [digitsOf]

/-- The DEC sequence computes `dec` (R139). -/
theorem Work.decodeChars_spec (ocap : Nat) (x : List Byte) (w : Work) (hocap : 2 * x.length ≤ ocap) :
    (∀ p, dec x = .error p → ∃ w', w.decodeChars ocap x = (w', some p) ∧
        (x.length ≤ w.wbuf.length → w' = { w with wbuf := w'.wbuf } ∧ w'.wbuf.length = w.wbuf.length)) ∧
      (∀ b, dec x = .ok b → ∃ w', w.decodeChars ocap x = (w', none) ∧ w'.emitted ocap = b ∧
        (x.length ≤ w.wbuf.length → Work.Ran ocap w w') ∧ w'.wlen = x.length) := by
  obtain ⟨hok, hbad⟩ := scanDigits_spec 0 x
  cases hfi : firstInvalid x with
  | some q =>
    obtain ⟨ds, hds, hl⟩ := hbad q hfi
    refine ⟨fun p hp => ?_, fun b hb => by simp [dec, hfi] at hb⟩
    have : q = p := by simpa [dec, hfi] using hp
    subst this
    refine ⟨w.storeAt 0 ds, by simp [Work.decodeChars, hds], fun hfit => ⟨rfl, ?_⟩⟩
    exact Work.storeAt_length w 0 ds (by omega)
  | none =>
    have hds := hok hfi
    refine ⟨fun p hp => by simp [dec, hfi] at hp, fun b hb => ?_⟩
    set ds := (digitsOf x).map (BitVec.ofNat 8) with hdsdef
    have hdl : ds.length = x.length := by simp [hdsdef]
    have hnats : nats ds = digitsOf x := nats_map_ofNat fun d hd => by have := digitsOf_lt hd; omega
    set v : Work := { w.storeAt 0 ds with wlen := x.length } with hv
    have hnum : v.number 0 = ds := by
      rw [hv, ← hdl]; exact Work.number_store_zero w ds
    have hcells : ∀ c ∈ v.number 0, c.toNat < 58 := fun c hc => by
      rw [hnum] at hc
      exact digitsOf_lt (s := x) (by rw [← hnats]; exact List.mem_map.2 ⟨c, hc, rfl⟩)
    obtain ⟨h1, h2, h3, h4, h5, h6, h7, h8⟩ := Work.convert_spec radix_decoder (fun r => r) 0 (ocap := ocap)
      v (by simp [hv, Work.storeAt, hdl]) hocap hcells (fun _ _ => Iff.rfl)
    refine ⟨v.toBytes ocap, by simp [Work.decodeChars, hds, hv, hdsdef], ?_, fun hfit => ?_, h4⟩
    · rw [show (v.toBytes ocap).emitted ocap = _ from h1, hnum, hnats]
      simpa [dec, hfi] using hb
    · exact ⟨h3.trans (Work.storeAt_length w 0 ds (by omega)), h2, h5, h6, h7, h8⟩

/-- ENCC up to its checksum: the message is the version byte and the payload (R154, R156). -/
theorem Work.loadVersioned_message (ver : Nat) (p : List Byte) (w : Work) :
    let v := w.loadVersioned ver p
    v.wbuf.take v.wlen = BitVec.ofNat 8 ver :: p ∧ v.wlen = p.length + 1 ∧ v.wlen ≤ v.wbuf.length ∧
      (p.length + 1 ≤ w.wbuf.length → v.wbuf.length = w.wbuf.length) := by
  refine ⟨by simp [Work.loadVersioned, Work.storeAt], rfl, by simp [Work.loadVersioned, Work.storeAt],
    fun h => ?_⟩
  simp [Work.loadVersioned, Work.storeAt]; omega

/-- ENCC from its checksum on computes `encc` (R155, R156). -/
theorem Work.encodeChecked_spec (H : HashFn) (ocap ver : Nat) (p : List Byte) (w : Work)
    (hocap : 2 * (p.length + 5) ≤ ocap) :
    let e := (w.loadVersioned ver p).encodeChecked H ocap
    e.emitted ocap = encc H (BitVec.ofNat 8 ver) p ∧
      (p.length + 5 ≤ w.wbuf.length → Work.Ran ocap w e) ∧ e.wlen = p.length + 5 := by
  obtain ⟨hmsg, hwlen, hle, hlen⟩ := Work.loadVersioned_message ver p w
  set v := w.loadVersioned ver p with hv
  set c := v.csum H (v.wbuf.take v.wlen) with hc
  have hcs : c.cs = Machine.csum H (BitVec.ofNat 8 ver :: p) := by rw [hc, hmsg]; rfl
  have hcw : c.wlen = p.length + 1 := hwlen
  have hcsl : c.cs.toList.length = 4 := by simp
  set u : Work := { c.storeAt c.wlen c.cs.toList with wlen := c.wlen + 4 } with hu
  have htake : (c.wbuf.take c.wlen).length = p.length + 1 := by
    rw [List.length_take]
    have : c.wbuf.length = v.wbuf.length := rfl
    omega
  have hnum : u.number 0 = checkedPayload H (BitVec.ofNat 8 ver) p := by
    simp only [Work.number, hu, Work.storeAt, List.drop_zero]
    rw [List.take_append_of_le_length (by rw [List.length_append, htake, hcsl, hcw])]
    rw [List.take_of_length_le (by rw [List.length_append, htake, hcsl, hcw])]
    rw [show c.wbuf.take c.wlen = BitVec.ofNat 8 ver :: p from hmsg, hcs]
    rfl
  have hul : u.wlen ≤ u.wbuf.length := by
    rw [hcw] at htake
    simp only [hu, Work.storeAt, List.length_append, htake, hcsl, hcw]; omega
  obtain ⟨h1, h2, h3⟩ := Work.toChars_spec ocap u hul (by simp only [hu, hcw]; omega)
  refine ⟨?_, fun hfit => ?_, h3.trans (by simp only [hu, hcw])⟩
  · rw [hnum] at h1; exact h1
  · have hvl := hlen (by omega)
    refine ⟨h2.wbuf.trans ?_, h2.epos, h2.z, h2.start, h2.acc, h2.ebuf⟩
    show (c.storeAt c.wlen c.cs.toList).wbuf.length = _
    rw [Work.storeAt_length]
    · exact hvl
    · show c.wlen + _ ≤ v.wbuf.length
      rw [hcsl, hcw, hvl]; omega

end Sys2Proof.Machine
end

