-- ==== Sys2Proof/Laws/State.lean ====
section
/-! SUPPORT. One lemma per field and shared operation: what it becomes (R207, R209, R210, R230), all by definition. -/

namespace Sys2Proof.Machine

/-! ### `issue` -/

@[simp] theorem State.issue_params (s : State) (w : Word) : (s.issue w).params = s.params := rfl
@[simp] theorem State.issue_seq (s : State) (w : Word) : (s.issue w).seq = .busy := rfl
@[simp] theorem State.issue_err (s : State) (w : Word) : (s.issue w).err = none := rfl
@[simp] theorem State.issue_errpos (s : State) (w : Word) : (s.issue w).errpos = 0 := rfl
@[simp] theorem State.issue_ilen (s : State) (w : Word) : (s.issue w).ilen = s.ilen := rfl
@[simp] theorem State.issue_olen (s : State) (w : Word) : (s.issue w).olen = 0 := rfl
@[simp] theorem State.issue_ibuf (s : State) (w : Word) : (s.issue w).ibuf = s.ibuf := rfl
@[simp] theorem State.issue_obuf (s : State) (w : Word) : (s.issue w).obuf = s.obuf := rfl
@[simp] theorem State.issue_work (s : State) (w : Word) : (s.issue w).work = { s.work with lop := opField w, lver := verField w, legal := isLegal w } := rfl
@[simp] theorem State.issue_powerOn (s : State) (w : Word) : (s.issue w).powerOn = s.powerOn := rfl
@[simp] theorem State.issue_hashAnswers (s : State) (w : Word) : (s.issue w).hashAnswers = s.hashAnswers := rfl
@[simp] theorem State.issue_hashRequests (s : State) (w : Word) : (s.issue w).hashRequests = s.hashRequests := rfl
@[simp] theorem State.issue_turns (s : State) (w : Word) : (s.issue w).turns = s.turns := rfl
@[simp] theorem State.issue_responses (s : State) (w : Word) : (s.issue w).responses = s.responses := rfl

/-! ### `complete` -/

@[simp] theorem State.complete_params (s : State) (out : List Byte) : (s.complete out).params = s.params := rfl
@[simp] theorem State.complete_seq (s : State) (out : List Byte) : (s.complete out).seq = .done := rfl
@[simp] theorem State.complete_err (s : State) (out : List Byte) : (s.complete out).err = none := rfl
@[simp] theorem State.complete_errpos (s : State) (out : List Byte) : (s.complete out).errpos = 0 := rfl
@[simp] theorem State.complete_ilen (s : State) (out : List Byte) : (s.complete out).ilen = s.ilen := rfl
@[simp] theorem State.complete_olen (s : State) (out : List Byte) : (s.complete out).olen = BitVec.ofNat 32 out.length := rfl
@[simp] theorem State.complete_ibuf (s : State) (out : List Byte) : (s.complete out).ibuf = s.ibuf := rfl
@[simp] theorem State.complete_obuf (s : State) (out : List Byte) : (s.complete out).obuf = s.obuf.writeSeq 0 out := rfl
@[simp] theorem State.complete_work (s : State) (out : List Byte) : (s.complete out).work = s.work := rfl
@[simp] theorem State.complete_powerOn (s : State) (out : List Byte) : (s.complete out).powerOn = s.powerOn := rfl
@[simp] theorem State.complete_hashAnswers (s : State) (out : List Byte) : (s.complete out).hashAnswers = s.hashAnswers := rfl
@[simp] theorem State.complete_hashRequests (s : State) (out : List Byte) : (s.complete out).hashRequests = s.hashRequests := rfl
@[simp] theorem State.complete_turns (s : State) (out : List Byte) : (s.complete out).turns = s.turns := rfl
@[simp] theorem State.complete_responses (s : State) (out : List Byte) : (s.complete out).responses = s.responses := rfl

/-! ### `raise` -/

@[simp] theorem State.raise_params (s : State) (e : ErrorCause) (pos : Nat) : (s.raise e pos).params = s.params := rfl
@[simp] theorem State.raise_seq (s : State) (e : ErrorCause) (pos : Nat) : (s.raise e pos).seq = .error := rfl
@[simp] theorem State.raise_err (s : State) (e : ErrorCause) (pos : Nat) : (s.raise e pos).err = some e := rfl
@[simp] theorem State.raise_errpos (s : State) (e : ErrorCause) (pos : Nat) : (s.raise e pos).errpos = BitVec.ofNat 32 pos := rfl
@[simp] theorem State.raise_ilen (s : State) (e : ErrorCause) (pos : Nat) : (s.raise e pos).ilen = s.ilen := rfl
@[simp] theorem State.raise_olen (s : State) (e : ErrorCause) (pos : Nat) : (s.raise e pos).olen = 0 := rfl
@[simp] theorem State.raise_ibuf (s : State) (e : ErrorCause) (pos : Nat) : (s.raise e pos).ibuf = s.ibuf := rfl
@[simp] theorem State.raise_obuf (s : State) (e : ErrorCause) (pos : Nat) : (s.raise e pos).obuf = s.obuf := rfl
@[simp] theorem State.raise_work (s : State) (e : ErrorCause) (pos : Nat) : (s.raise e pos).work = s.work := rfl
@[simp] theorem State.raise_powerOn (s : State) (e : ErrorCause) (pos : Nat) : (s.raise e pos).powerOn = s.powerOn := rfl
@[simp] theorem State.raise_hashAnswers (s : State) (e : ErrorCause) (pos : Nat) : (s.raise e pos).hashAnswers = s.hashAnswers := rfl
@[simp] theorem State.raise_hashRequests (s : State) (e : ErrorCause) (pos : Nat) : (s.raise e pos).hashRequests = s.hashRequests := rfl
@[simp] theorem State.raise_turns (s : State) (e : ErrorCause) (pos : Nat) : (s.raise e pos).turns = s.turns := rfl
@[simp] theorem State.raise_responses (s : State) (e : ErrorCause) (pos : Nat) : (s.raise e pos).responses = s.responses := rfl

/-! ### `setWork` -/

@[simp] theorem State.setWork_params (s : State) (w : Work) : (s.setWork w).params = s.params := rfl
@[simp] theorem State.setWork_seq (s : State) (w : Work) : (s.setWork w).seq = s.seq := rfl
@[simp] theorem State.setWork_err (s : State) (w : Work) : (s.setWork w).err = s.err := rfl
@[simp] theorem State.setWork_errpos (s : State) (w : Work) : (s.setWork w).errpos = s.errpos := rfl
@[simp] theorem State.setWork_ilen (s : State) (w : Work) : (s.setWork w).ilen = s.ilen := rfl
@[simp] theorem State.setWork_olen (s : State) (w : Work) : (s.setWork w).olen = s.olen := rfl
@[simp] theorem State.setWork_ibuf (s : State) (w : Work) : (s.setWork w).ibuf = s.ibuf := rfl
@[simp] theorem State.setWork_obuf (s : State) (w : Work) : (s.setWork w).obuf = s.obuf := rfl
@[simp] theorem State.setWork_work (s : State) (w : Work) : (s.setWork w).work = w := rfl
@[simp] theorem State.setWork_powerOn (s : State) (w : Work) : (s.setWork w).powerOn = s.powerOn := rfl
@[simp] theorem State.setWork_hashAnswers (s : State) (w : Work) : (s.setWork w).hashAnswers = s.hashAnswers := rfl
@[simp] theorem State.setWork_hashRequests (s : State) (w : Work) : (s.setWork w).hashRequests = s.hashRequests := rfl
@[simp] theorem State.setWork_turns (s : State) (w : Work) : (s.setWork w).turns = s.turns := rfl
@[simp] theorem State.setWork_responses (s : State) (w : Work) : (s.setWork w).responses = s.responses := rfl

/-! ### `logCsum` -/

@[simp] theorem State.logCsum_params (s : State) (H : HashFn) (m : List Byte) : (s.logCsum H m).params = s.params := rfl
@[simp] theorem State.logCsum_seq (s : State) (H : HashFn) (m : List Byte) : (s.logCsum H m).seq = s.seq := rfl
@[simp] theorem State.logCsum_err (s : State) (H : HashFn) (m : List Byte) : (s.logCsum H m).err = s.err := rfl
@[simp] theorem State.logCsum_errpos (s : State) (H : HashFn) (m : List Byte) : (s.logCsum H m).errpos = s.errpos := rfl
@[simp] theorem State.logCsum_ilen (s : State) (H : HashFn) (m : List Byte) : (s.logCsum H m).ilen = s.ilen := rfl
@[simp] theorem State.logCsum_olen (s : State) (H : HashFn) (m : List Byte) : (s.logCsum H m).olen = s.olen := rfl
@[simp] theorem State.logCsum_ibuf (s : State) (H : HashFn) (m : List Byte) : (s.logCsum H m).ibuf = s.ibuf := rfl
@[simp] theorem State.logCsum_obuf (s : State) (H : HashFn) (m : List Byte) : (s.logCsum H m).obuf = s.obuf := rfl
@[simp] theorem State.logCsum_work (s : State) (H : HashFn) (m : List Byte) : (s.logCsum H m).work = s.work := rfl
@[simp] theorem State.logCsum_powerOn (s : State) (H : HashFn) (m : List Byte) : (s.logCsum H m).powerOn = s.powerOn := rfl
@[simp] theorem State.logCsum_hashAnswers (s : State) (H : HashFn) (m : List Byte) : (s.logCsum H m).hashAnswers = s.hashAnswers := rfl
@[simp] theorem State.logCsum_hashRequests (s : State) (H : HashFn) (m : List Byte) : (s.logCsum H m).hashRequests = s.hashRequests ++ [m, (H m).toList] := rfl
@[simp] theorem State.logCsum_turns (s : State) (H : HashFn) (m : List Byte) : (s.logCsum H m).turns = s.turns := rfl
@[simp] theorem State.logCsum_responses (s : State) (H : HashFn) (m : List Byte) : (s.logCsum H m).responses = s.responses := rfl

/-! ### `respond` -/

@[simp] theorem State.respond_params (s : State) (r : Response) : (s.respond r).params = s.params := rfl
@[simp] theorem State.respond_seq (s : State) (r : Response) : (s.respond r).seq = s.seq := rfl
@[simp] theorem State.respond_err (s : State) (r : Response) : (s.respond r).err = s.err := rfl
@[simp] theorem State.respond_errpos (s : State) (r : Response) : (s.respond r).errpos = s.errpos := rfl
@[simp] theorem State.respond_ilen (s : State) (r : Response) : (s.respond r).ilen = s.ilen := rfl
@[simp] theorem State.respond_olen (s : State) (r : Response) : (s.respond r).olen = s.olen := rfl
@[simp] theorem State.respond_ibuf (s : State) (r : Response) : (s.respond r).ibuf = s.ibuf := rfl
@[simp] theorem State.respond_obuf (s : State) (r : Response) : (s.respond r).obuf = s.obuf := rfl
@[simp] theorem State.respond_work (s : State) (r : Response) : (s.respond r).work = s.work := rfl
@[simp] theorem State.respond_powerOn (s : State) (r : Response) : (s.respond r).powerOn = s.powerOn := rfl
@[simp] theorem State.respond_hashAnswers (s : State) (r : Response) : (s.respond r).hashAnswers = s.hashAnswers := rfl
@[simp] theorem State.respond_hashRequests (s : State) (r : Response) : (s.respond r).hashRequests = s.hashRequests := rfl
@[simp] theorem State.respond_turns (s : State) (r : Response) : (s.respond r).turns = s.turns := rfl
@[simp] theorem State.respond_responses (s : State) (r : Response) : (s.respond r).responses = r :: s.responses := rfl

/-! ### `resetInput` -/

@[simp] theorem State.resetInput_params (s : State) : s.resetInput.params = s.params := rfl
@[simp] theorem State.resetInput_seq (s : State) : s.resetInput.seq = .idle := rfl
@[simp] theorem State.resetInput_err (s : State) : s.resetInput.err = none := rfl
@[simp] theorem State.resetInput_errpos (s : State) : s.resetInput.errpos = 0 := rfl
@[simp] theorem State.resetInput_ilen (s : State) : s.resetInput.ilen = 0 := rfl
@[simp] theorem State.resetInput_olen (s : State) : s.resetInput.olen = 0 := rfl
@[simp] theorem State.resetInput_ibuf (s : State) : s.resetInput.ibuf = [] := rfl
@[simp] theorem State.resetInput_obuf (s : State) : s.resetInput.obuf = [] := rfl
@[simp] theorem State.resetInput_work (s : State) : s.resetInput.work = Work.reset s.params := rfl
@[simp] theorem State.resetInput_powerOn (s : State) : s.resetInput.powerOn = s.powerOn + 1 := rfl
@[simp] theorem State.resetInput_hashAnswers (s : State) : s.resetInput.hashAnswers = s.hashAnswers := rfl
@[simp] theorem State.resetInput_hashRequests (s : State) : s.resetInput.hashRequests = s.hashRequests := rfl
@[simp] theorem State.resetInput_turns (s : State) : s.resetInput.turns = s.turns := rfl
@[simp] theorem State.resetInput_responses (s : State) : s.resetInput.responses = s.responses := rfl

/-! ### What depends on `IBUF` and `ILEN` alone -/

@[simp] theorem State.setWork_input (s : State) (w : Work) : (s.setWork w).input = s.input := rfl
@[simp] theorem State.issue_input (s : State) (w : Word) : (s.issue w).input = s.input := rfl
@[simp] theorem State.complete_input (s : State) (out : List Byte) : (s.complete out).input = s.input := rfl
@[simp] theorem State.raise_input (s : State) (e : ErrorCause) (pos : Nat) : (s.raise e pos).input = s.input := rfl
@[simp] theorem State.logCsum_input (s : State) (H : HashFn) (m : List Byte) : (s.logCsum H m).input = s.input := rfl

/-- The input has `ILEN` elements. -/
@[simp] theorem State.input_length (s : State) : s.input.length = s.ilen.toNat := by simp [State.input]

/-- The output has `OLEN` elements. -/
@[simp] theorem State.output_length (s : State) : s.output.length = s.olen.toNat := by simp [State.output]

/-- The length check, as a proposition (R206). -/
theorem State.inputTooLong_iff (s : State) : s.inputTooLong = true ↔ s.params.cap < s.ilen.toNat := by
  simp [State.inputTooLong]

end Sys2Proof.Machine
end

