-- ==== Sys2Proof/Laws/Commands.lean ====
section
/-! SUPPORT. One lemma per command: everything its execution can answer, in terms of the functional definitions (R112,
R132, R156, R161). Proofs about commands cite these and do not unfold the sequences. -/

namespace Sys2Proof.Machine

/-- The hidden state a command leaves: as it was, or after a sequence that ran on it, where it had room for the input; the
latches stay. -/
structure Work.After (p : Params) (n : Nat) (w v : Work) : Prop where
  lop : v.lop = w.lop
  lver : v.lver = w.lver
  legal : v.legal = w.legal
  /-- The number converted has at most `n` elements. -/
  ran : w.wbuf.length = p.wcap → n ≤ p.wcap →
    v.wbuf.length = w.wbuf.length ∧
      ((v.z = w.z ∧ v.start = w.start ∧ v.wlen = w.wlen ∧ v.epos = w.epos ∧ v.ebuf = w.ebuf ∧ v.acc = w.acc) ∨
        (v.z ≤ v.start ∧ v.start = v.wlen ∧ v.wlen ≤ n ∧ v.epos ≤ p.ocap ∧ (w.ebuf.wf p.ocap → v.ebuf.wf p.ocap) ∧
          (w.acc.toNat ≤ 14847 → v.acc.toNat ≤ 14847)))

theorem Work.After.rfl' (p : Params) (n : Nat) (w : Work) : Work.After p n w w :=
  ⟨rfl, rfl, rfl, fun _ _ => ⟨rfl, .inl ⟨rfl, rfl, rfl, rfl, rfl, rfl⟩⟩⟩

/-! ### The loops leave the latches alone -/

theorem Work.passes_latches (base divisor : Nat) (emit : Byte → Byte) (fuel : Nat) (w : Work) :
    (Work.passes base divisor emit fuel w).lop = w.lop ∧ (Work.passes base divisor emit fuel w).lver = w.lver ∧
      (Work.passes base divisor emit fuel w).legal = w.legal := by
  induction fuel generalizing w with
  | zero => exact ⟨rfl, rfl, rfl⟩
  | succ fuel ih =>
    have hp : (w.pass base divisor emit).lop = w.lop ∧ (w.pass base divisor emit).lver = w.lver ∧
        (w.pass base divisor emit).legal = w.legal := by
      simp only [Work.pass, Work.advance]; split <;> exact ⟨rfl, rfl, rfl⟩
    simp only [Work.passes]
    split
    · obtain ⟨h1, h2, h3⟩ := ih (w.pass base divisor emit)
      exact ⟨h1.trans hp.1, h2.trans hp.2.1, h3.trans hp.2.2⟩
    · exact ⟨rfl, rfl, rfl⟩

theorem Work.countZeros_latches (fuel : Nat) (w : Work) :
    (Work.countZeros fuel w).lop = w.lop ∧ (Work.countZeros fuel w).lver = w.lver ∧
      (Work.countZeros fuel w).legal = w.legal := by
  induction fuel generalizing w with
  | zero => exact ⟨rfl, rfl, rfl⟩
  | succ fuel ih =>
    simp only [Work.countZeros]
    split
    · exact ih { w with z := w.z + 1 }
    · exact ⟨rfl, rfl, rfl⟩

theorem Work.strip_latches (ocap : Nat) (zero : Byte) (fuel : Nat) (w : Work) :
    (Work.strip ocap zero fuel w).lop = w.lop ∧ (Work.strip ocap zero fuel w).lver = w.lver ∧
      (Work.strip ocap zero fuel w).legal = w.legal := by
  induction fuel generalizing w with
  | zero => exact ⟨rfl, rfl, rfl⟩
  | succ fuel ih =>
    simp only [Work.strip]
    split
    · exact ih { w with epos := w.epos + 1 }
    · exact ⟨rfl, rfl, rfl⟩

theorem Work.prepend_latches (zero : Byte) (k : Nat) (w : Work) :
    (Work.prepend zero k w).lop = w.lop ∧ (Work.prepend zero k w).lver = w.lver ∧
      (Work.prepend zero k w).legal = w.legal := by
  induction k generalizing w with
  | zero => exact ⟨rfl, rfl, rfl⟩
  | succ k ih => exact ih (w.push zero)

/-- A conversion leaves the latches alone. -/
theorem Work.convert_latches (base divisor : Nat) (emit : Byte → Byte) (zero : Byte) (ocap : Nat) (w : Work) :
    (w.convert base divisor emit zero ocap).lop = w.lop ∧ (w.convert base divisor emit zero ocap).lver = w.lver ∧
      (w.convert base divisor emit zero ocap).legal = w.legal := by
  obtain ⟨a1, a2, a3⟩ := Work.countZeros_latches w.wlen { w with z := 0 }
  obtain ⟨b1, b2, b3⟩ := Work.passes_latches base divisor emit
    (2 * ((w.ready ocap).wlen - (w.ready ocap).start)) (w.ready ocap)
  set d := Work.passes base divisor emit (2 * ((w.ready ocap).wlen - (w.ready ocap).start)) (w.ready ocap) with hd
  obtain ⟨c1, c2, c3⟩ := Work.strip_latches ocap zero (ocap - d.epos) d
  set t := Work.strip ocap zero (ocap - d.epos) d with ht
  obtain ⟨d1, d2, d3⟩ := Work.prepend_latches zero t.z t
  have hc : w.convert base divisor emit zero ocap = Work.prepend zero t.z t := rfl
  rw [hc]
  exact ⟨d1.trans (c1.trans (b1.trans a1)), d2.trans (c2.trans (b2.trans a2)), d3.trans (c3.trans (b3.trans a3))⟩

/-! ### Bounds of the parameters -/

theorem input_fits (p : Params) {n : Nat} (h : n ≤ p.cap) : 2 * n ≤ p.ocap ∧ 2 * (n + 5) ≤ p.ocap ∧
    n + 5 ≤ p.wcap := by
  simp only [Params.ocap, Params.wcap]; omega

theorem ocap_lt (p : Params) : p.ocap < 2 ^ 32 := by
  have := p.cap_le
  simp only [Params.ocap]; omega

/-- What is emitted fits `OBUF`. -/
theorem Work.emitted_length_le (ocap : Nat) (w : Work) : (w.emitted ocap).length ≤ ocap := by
  simp [Work.emitted]

@[simp] theorem enc_nil : enc [] = [] := rfl
@[simp] theorem dec_nil : dec [] = .ok [] := rfl

/-- The empty length is the empty input. -/
theorem State.input_eq_nil {s : State} (h : s.ilen = 0) : s.input = [] := by
  rw [← List.length_eq_zero_iff, State.input_length, h]; rfl

/-! ### The commands -/

/-- ENC (R112). -/
theorem execEnc_eq (s : State) :
    (s.params.cap < s.ilen.toNat ∧ execEnc s = .next (s.raise .lengthOverflow 0)) ∨
    (s.ilen.toNat ≤ s.params.cap ∧ (enc s.input).length ≤ s.params.ocap ∧
      ∃ w, execEnc s = .next ((s.setWork w).complete (enc s.input)) ∧
        Work.After s.params s.ilen.toNat s.work w) := by
  unfold execEnc
  by_cases hlong : s.params.cap < s.ilen.toNat
  · left; rw [if_pos ((s.inputTooLong_iff).2 hlong)]; exact ⟨hlong, rfl⟩
  · right
    have hle : s.ilen.toNat ≤ s.params.cap := by omega
    rw [if_neg (fun h => hlong ((s.inputTooLong_iff).1 h))]
    by_cases h0 : s.ilen = 0
    · rw [if_pos h0, State.input_eq_nil h0]
      exact ⟨hle, by simp, s.work, rfl, Work.After.rfl' _ _ _⟩
    · rw [if_neg h0]
      obtain ⟨hfit, -, -⟩ := input_fits s.params hle
      obtain ⟨h1, h2, h3⟩ := Work.encodeBytes_spec s.params.ocap s.input s.work (by simpa using hfit)
      refine ⟨hle, ?_, s.work.encodeBytes s.params.ocap s.input, ?_, ?_⟩
      · rw [← h1]; exact Work.emitted_length_le _ _
      · simp only [h1]
      · obtain ⟨l1, l2, l3⟩ := Work.convert_latches 256 58 (fun r => alpha r.toNat) zeroChar s.params.ocap
          { s.work.storeAt 0 s.input with wlen := s.input.length }
        refine ⟨l1, l2, l3, fun hw hn => ?_⟩
        have h2 := h2 (by simp; omega)
        exact ⟨h2.wbuf, .inr ⟨h2.z, h2.start, by rw [h3]; simp, h2.epos, h2.ebuf, h2.acc⟩⟩

/-- The DEC sequence from a state: what it leaves, for a valid input and for another (R132). -/
theorem decodeChars_eq (s : State) (hle : s.ilen.toNat ≤ s.params.cap) :
    (∀ p, dec s.input = .error p → p < s.ilen.toNat ∧ ∃ w, s.work.decodeChars s.params.ocap s.input = (w, some p) ∧
      Work.After s.params s.ilen.toNat s.work w) ∧
    (∀ b, dec s.input = .ok b → b.length ≤ s.params.ocap ∧
      ∃ w, s.work.decodeChars s.params.ocap s.input = (w, none) ∧ w.emitted s.params.ocap = b ∧
        Work.After s.params s.ilen.toNat s.work w) := by
  obtain ⟨hfit, -, -⟩ := input_fits s.params hle
  obtain ⟨hbad, hok⟩ := Work.decodeChars_spec s.params.ocap s.input s.work (by simpa using hfit)
  refine ⟨fun p hp => ⟨?_, ?_⟩, fun b hb => ?_⟩
  · have hf : firstInvalid s.input = some p := by
      unfold dec at hp; split at hp <;> simp_all
    obtain ⟨h, -⟩ := (List.findIdx?_eq_some_iff_getElem).1 hf
    simpa using h
  · obtain ⟨w, hw, hrest⟩ := hbad p hp
    have hl : w.lop = s.work.lop ∧ w.lver = s.work.lver ∧ w.legal = s.work.legal := by
      have hf : w = s.work.storeAt 0 (scanDigits 0 s.input).1 := by
        simp only [Work.decodeChars] at hw
        split at hw
        · simpa using (Prod.mk.inj hw).1.symm
        · simp at hw
      rw [hf]; exact ⟨rfl, rfl, rfl⟩
    refine ⟨w, hw, hl.1, hl.2.1, hl.2.2, fun hwl hn => ?_⟩
    obtain ⟨he, hlen⟩ := hrest (by simp; omega)
    refine ⟨hlen, .inl ?_⟩
    rw [he]; exact ⟨rfl, rfl, rfl, rfl, rfl, rfl⟩
  · obtain ⟨w, hw, hemit, hran, hwlen⟩ := hok b hb
    have hl : w.lop = s.work.lop ∧ w.lver = s.work.lver ∧ w.legal = s.work.legal := by
      simp only [Work.decodeChars] at hw
      split at hw
      · simp at hw
      · rw [← (Prod.mk.inj hw).1]
        exact Work.convert_latches 58 256 (fun r => r) 0 s.params.ocap _
    refine ⟨hemit ▸ Work.emitted_length_le _ _, w, hw, hemit, hl.1, hl.2.1, hl.2.2, fun hwl hn => ?_⟩
    have hr := hran (by simp; omega)
    exact ⟨hr.wbuf, .inr ⟨hr.z, hr.start, by rw [hwlen]; simp, hr.epos, hr.ebuf, hr.acc⟩⟩

/-- DEC (R132). -/
theorem execDec_eq (s : State) :
    (s.params.cap < s.ilen.toNat ∧ execDec s = .next (s.raise .lengthOverflow 0)) ∨
    (s.ilen.toNat ≤ s.params.cap ∧ ∃ w, Work.After s.params s.ilen.toNat s.work w ∧
      ((∃ p, dec s.input = .error p ∧ p < s.ilen.toNat ∧
          execDec s = .next ((s.setWork w).raise .invalidCharacter p)) ∨
        ∃ b, dec s.input = .ok b ∧ b.length ≤ s.params.ocap ∧ execDec s = .next ((s.setWork w).complete b))) := by
  unfold execDec
  by_cases hlong : s.params.cap < s.ilen.toNat
  · left; rw [if_pos ((s.inputTooLong_iff).2 hlong)]; exact ⟨hlong, rfl⟩
  · right
    have hle : s.ilen.toNat ≤ s.params.cap := by omega
    refine ⟨hle, ?_⟩
    rw [if_neg (fun h => hlong ((s.inputTooLong_iff).1 h))]
    by_cases h0 : s.ilen = 0
    · rw [if_pos h0, State.input_eq_nil h0]
      exact ⟨s.work, Work.After.rfl' _ _ _, .inr ⟨[], by simp, by simp, rfl⟩⟩
    · rw [if_neg h0]
      obtain ⟨hbad, hok⟩ := decodeChars_eq s hle
      cases hd : dec s.input with
      | error p =>
        obtain ⟨hp, w, hw, ha⟩ := hbad p hd
        exact ⟨w, ha, .inl ⟨p, rfl, hp, by rw [hw]⟩⟩
      | ok b =>
        obtain ⟨hb, w, hw, hemit, ha⟩ := hok b hd
        exact ⟨w, ha, .inr ⟨b, rfl, hb, by rw [hw]; simp only [hemit]⟩⟩

/-- ENCC with any hash function (R156). -/
theorem execEnccWith_eq (H : HashFn) (ver : Nat) (s : State) :
    (255 < ver ∧ execEnccWith H ver s = .next (s.raise .invalidVersion 0)) ∨
    (ver ≤ 255 ∧ s.params.cap < s.ilen.toNat ∧ execEnccWith H ver s = .next (s.raise .lengthOverflow 0)) ∨
    (ver ≤ 255 ∧ s.ilen.toNat ≤ s.params.cap ∧ s.hashAnswers = false ∧ execEnccWith H ver s = .next s) ∨
    (ver ≤ 255 ∧ s.ilen.toNat ≤ s.params.cap ∧ s.hashAnswers = true ∧
      (encc H (BitVec.ofNat 8 ver) s.input).length ≤ s.params.ocap ∧
      ∃ w, Work.After s.params (s.ilen.toNat + 5) s.work w ∧
        execEnccWith H ver s = .next (((s.setWork w).logCsum H (BitVec.ofNat 8 ver :: s.input)).complete
          (encc H (BitVec.ofNat 8 ver) s.input))) := by
  unfold execEnccWith
  by_cases hv : 255 < ver
  · left; rw [if_pos hv]; exact ⟨hv, rfl⟩
  · right
    have hv' : ver ≤ 255 := by omega
    rw [if_neg hv]
    by_cases hlong : s.params.cap < s.ilen.toNat
    · left; rw [if_pos ((s.inputTooLong_iff).2 hlong)]; exact ⟨hv', hlong, rfl⟩
    · right
      have hle : s.ilen.toNat ≤ s.params.cap := by omega
      rw [if_neg (fun h => hlong ((s.inputTooLong_iff).1 h))]
      cases ha : s.hashAnswers with
      | false => left; exact ⟨hv', hle, rfl, rfl⟩
      | true =>
        right
        obtain ⟨-, hfit, -⟩ := input_fits s.params hle
        obtain ⟨h1, h2, h3⟩ := Work.encodeChecked_spec H s.params.ocap ver s.input s.work (by simpa using hfit)
        obtain ⟨hmsg, -⟩ := Work.loadVersioned_message ver s.input s.work
        refine ⟨hv', hle, rfl, ?_, (s.work.loadVersioned ver s.input).encodeChecked H s.params.ocap, ?_, ?_⟩
        · rw [← h1]; exact Work.emitted_length_le _ _
        · obtain ⟨l1, l2, l3⟩ := Work.convert_latches 256 58 (fun r => alpha r.toNat) zeroChar s.params.ocap
            (let w0 := s.work.loadVersioned ver s.input
             let c := w0.csum H (w0.wbuf.take w0.wlen)
             { c.storeAt c.wlen c.cs.toList with wlen := c.wlen + 4 })
          refine ⟨l1, l2, l3, fun hw hn => ?_⟩
          have h2 := h2 (by simp; omega)
          exact ⟨h2.wbuf, .inr ⟨h2.z, h2.start, by rw [h3]; simp, h2.epos, h2.ebuf, h2.acc⟩⟩
        · simp only [Bool.not_true, Bool.false_eq_true, if_false]
          rw [h1, hmsg]

/-- DECC with any hash function (R161). -/
theorem execDeccWith_eq (H : HashFn) (s : State) :
    (s.params.cap < s.ilen.toNat ∧ execDeccWith H s = .next (s.raise .lengthOverflow 0)) ∨
    (s.ilen.toNat ≤ s.params.cap ∧ ∃ w, Work.After s.params s.ilen.toNat s.work w ∧
      ((∃ p, dec s.input = .error p ∧ p < s.ilen.toNat ∧
          execDeccWith H s = .next ((s.setWork w).raise .invalidCharacter p)) ∨
        ∃ b, dec s.input = .ok b ∧ b.length ≤ s.params.ocap ∧
          ((b.length < 4 ∧ execDeccWith H s = .next ((s.setWork w).raise .tooShort 0)) ∨
            (4 ≤ b.length ∧ s.hashAnswers = false ∧ execDeccWith H s = .next s) ∨
            (4 ≤ b.length ∧ s.hashAnswers = true ∧
              (csum H (b.take (b.length - 4))).toList = b.drop (b.length - 4) ∧
              execDeccWith H s = .next (((s.setWork w).logCsum H (b.take (b.length - 4))).complete
                (b.take (b.length - 4)))) ∨
            (4 ≤ b.length ∧ s.hashAnswers = true ∧
              (csum H (b.take (b.length - 4))).toList ≠ b.drop (b.length - 4) ∧
              execDeccWith H s = .next (((s.setWork w).logCsum H (b.take (b.length - 4))).raise
                .checksumMismatch 0))))) := by
  unfold execDeccWith
  by_cases hlong : s.params.cap < s.ilen.toNat
  · left; rw [if_pos ((s.inputTooLong_iff).2 hlong)]; exact ⟨hlong, rfl⟩
  · right
    have hle : s.ilen.toNat ≤ s.params.cap := by omega
    refine ⟨hle, ?_⟩
    rw [if_neg (fun h => hlong ((s.inputTooLong_iff).1 h))]
    obtain ⟨hbad, hok⟩ := decodeChars_eq s hle
    cases hd : dec s.input with
    | error p =>
      obtain ⟨hp, w, hw, ha⟩ := hbad p hd
      exact ⟨w, ha, .inl ⟨p, rfl, hp, by rw [hw]⟩⟩
    | ok b =>
      obtain ⟨hb, w, hw, hemit, ha⟩ := hok b hd
      rw [hw]
      simp only [hemit]
      by_cases h4 : b.length < 4
      · exact ⟨w, ha, .inr ⟨b, rfl, hb, .inl ⟨h4, by rw [if_pos h4]⟩⟩⟩
      · have h4' : 4 ≤ b.length := by omega
        rw [if_neg h4]
        cases hans : s.hashAnswers with
        | false => exact ⟨w, ha, .inr ⟨b, rfl, hb, .inr (.inl ⟨h4', rfl, rfl⟩)⟩⟩
        | true =>
          have hcsum : Work.After s.params s.ilen.toNat s.work (w.csum H (b.take (b.length - 4))) :=
            ⟨ha.lop, ha.lver, ha.legal, ha.ran⟩
          refine ⟨w.csum H (b.take (b.length - 4)), hcsum, .inr ⟨b, rfl, hb, .inr (.inr ?_)⟩⟩
          simp only [Bool.not_true, Bool.false_eq_true, if_false]
          by_cases hc : (csum H (b.take (b.length - 4))).toList = b.drop (b.length - 4)
          · exact .inl ⟨h4', trivial, hc, by
              rw [if_pos (show (w.csum H (b.take (b.length - 4))).cs.toList = _ from hc)]⟩
          · exact .inr ⟨h4', trivial, hc, by
              rw [if_neg (show ¬ (w.csum H (b.take (b.length - 4))).cs.toList = _ from hc)]⟩

end Sys2Proof.Machine
end

