-- ==== Sys2Proof/Laws/PerInstr.lean ====
section
/-! SUPPORT. What holds of each instruction as syntax, constructor by constructor. -/

namespace Sys2Proof.Laws.EncodeFields

/-- The word of a well-formed instruction has `RSV = 0` (R91), the opcode of its row in `OP`, and in `VER` its version
operand, or 0 where it has none (R93 to R97). -/
def Statement (i : Instr) : Prop :=
  i.wellFormed = true →
    rsvField (encode i) = 0 ∧
    opField (encode i) = (match i with | .enc => 0x01 | .dec => 0x02 | .encc _ => 0x03 | .decc => 0x04) ∧
    (verField (encode i)).toNat = (match i with | .enc => 0 | .dec => 0 | .encc ver => ver | .decc => 0)

/-- Every field of an assembled word is the field it was assembled from. -/
theorem fields_assemble (rsv : BitVec 8) (ver : BitVec 16) (op : BitVec 8) :
    rsvField (assemble rsv ver op) = rsv ∧ verField (assemble rsv ver op) = ver ∧
      opField (assemble rsv ver op) = op := by
  refine ⟨?_, ?_, ?_⟩ <;>
    (apply BitVec.eq_of_getLsbD_eq; intro i hi;
      simp only [rsvField, verField, opField, assemble, BitVec.getLsbD_extractLsb', BitVec.getLsbD_append])
  · simp only [hi, decide_true, Bool.true_and, show ¬ 24 + i < 16 + 8 by omega, if_false]
    congr 1; omega
  · simp only [hi, decide_true, Bool.true_and, show 8 + i < 16 + 8 by omega, if_true,
      show ¬ 8 + i < 8 by omega, if_false]
    congr 1; omega
  · simp [hi, show i < 16 + 8 by omega]

theorem enc : Statement .enc := fun _ => by decide

theorem dec : Statement .dec := fun _ => by decide

theorem encc (ver : Nat) : Statement (.encc ver) := fun h => by
  obtain ⟨h1, h2, h3⟩ := fields_assemble 0 (BitVec.ofNat 16 ver) 0x03
  have hv : ver ≤ 0xFFFF := by simpa [Instr.wellFormed] using h
  refine ⟨h1, h3, ?_⟩
  show (verField (assemble 0 (BitVec.ofNat 16 ver) 0x03)).toNat = ver
  rw [h2, BitVec.toNat_ofNat]; omega

theorem decc : Statement .decc := fun _ => by decide

end Sys2Proof.Laws.EncodeFields
end

