-- ==== Sys2Proof/Laws/Step.lean ====
section
/-! SUPPORT. What a step is, by the head of the schedule, and what the engine's turn and a transaction answer. -/

namespace Sys2Proof.Machine

/-- With nothing scheduled a step is the engine's. -/
theorem step_of_nil {s : State} (h : s.turns = []) : step s = engineTurn s := by
  simp only [step, h]

/-- With a turn scheduled a step takes it. -/
theorem step_of_cons {s : State} {t : Turn} {ts : List Turn} (h : s.turns = t :: ts) :
    step s = takeTurn t { s with turns := ts } := by
  simp only [step, h]

/-- Outside BUSY the engine does nothing (R20). -/
theorem engineTurn_of_not_busy {s : State} (h : s.seq ≠ .busy) : engineTurn s = .next s := by
  simp only [engineTurn, if_pos h]

/-- While BUSY the engine executes the command (R207). -/
theorem engineTurn_of_command {s : State} {i : Instr} (h : s.seq = .busy) (hi : s.command? = some i) :
    engineTurn s = exec i s := by
  simp only [engineTurn, h, hi]; rfl

/-- While BUSY with an illegal word the engine ends it (R205). -/
theorem engineTurn_of_illegal {s : State} (h : s.seq = .busy) (hi : s.command? = none) :
    engineTurn s = .next (s.raise .illegalCommand 0) := by
  simp only [engineTurn, h, hi]; rfl

/-- Every command answers a next state. -/
theorem exec_next (i : Instr) (s : State) : ∃ t, exec i s = .next t := by
  cases i with
  | enc =>
    rcases execEnc_eq s with ⟨-, h⟩ | ⟨-, -, w, h, -⟩
    · exact ⟨_, h⟩
    · exact ⟨_, h⟩
  | dec =>
    rcases execDec_eq s with ⟨-, h⟩ | ⟨-, w, -, ⟨p, -, -, h⟩ | ⟨b, -, -, h⟩⟩
    · exact ⟨_, h⟩
    · exact ⟨_, h⟩
    · exact ⟨_, h⟩
  | encc v =>
    rcases execEnccWith_eq Config.hash v s with ⟨-, h⟩ | ⟨-, -, h⟩ | ⟨-, -, -, h⟩ | ⟨-, -, -, -, w, -, h⟩
    all_goals exact ⟨_, h⟩
  | decc =>
    rcases execDeccWith_eq Config.hash s with ⟨-, h⟩ | ⟨-, w, -, ⟨p, -, -, h⟩ | ⟨b, -, -, h⟩⟩
    · exact ⟨_, h⟩
    · exact ⟨_, h⟩
    · rcases h with ⟨-, h⟩ | ⟨-, -, h⟩ | ⟨-, -, -, h⟩ | ⟨-, -, -, h⟩
      all_goals exact ⟨_, h⟩

/-- What a read does (R66). -/
theorem transact_read (s : State) (addr n : Nat) :
    s.transact (.read addr n) = s.respond
      (match Target.ofAccess s.params addr n with
        | none => .busError
        | some t => s.readTarget t) := by
  cases h : Target.ofAccess s.params addr n <;> simp only [State.transact, h]

/-- What a write does (R65, R66). -/
theorem transact_write (s : State) (addr n : Nat) (v : BitVec (8 * n)) :
    s.transact (.write addr n v) =
      match Target.ofAccess s.params addr n with
      | none => s.respond .busError
      | some t => (s.writeTarget v t).respond .ok := by
  cases h : Target.ofAccess s.params addr n <;> simp only [State.transact, h]

/-- The registers in the address map (R61). -/
theorem ofAccess_reg (p : Params) (off : Nat) :
    Target.ofAccess p (p.base + off) 4 = (Reg.atOffset off).map .reg := by
  simp [Target.ofAccess]

/-- `CMD` is at offset 0 (R61). -/
theorem ofAccess_cmd (p : Params) : Target.ofAccess p p.base 4 = some (.reg .cmd) := by
  exact ofAccess_reg p 0

/-- The input window in the address map (R61). -/
theorem ofAccess_ibuf (p : Params) {i : Nat} (h : i < p.cap) :
    Target.ofAccess p (p.base + 0x10000 + i) 1 = some (.ibuf i) := by
  have : ¬ p.base + 0x10000 + i < p.base := by omega
  simp only [Target.ofAccess, if_neg this, Target.cellAtOffset]
  rw [show p.base + 0x10000 + i - p.base = 0x10000 + i by omega, if_neg (by decide), if_pos trivial,
    if_pos (by omega), Nat.add_sub_cancel_left]

/-- The output window in the address map (R61). -/
theorem ofAccess_obuf (p : Params) {i : Nat} (h : i < p.ocap) :
    Target.ofAccess p (p.base + 0x20000 + i) 1 = some (.obuf i) := by
  have hc := p.cap_le
  have : ¬ p.base + 0x20000 + i < p.base := by omega
  simp only [Target.ofAccess, if_neg this, Target.cellAtOffset]
  rw [show p.base + 0x20000 + i - p.base = 0x20000 + i by omega, if_neg (by decide), if_pos trivial,
    if_neg (by omega), if_pos (by omega), Nat.add_sub_cancel_left]

/-- A register write presents the value whole (R63). -/
@[simp] theorem writeTarget_word (s : State) (v : Word) (t : Target) :
    s.writeTarget (n := 4) v t = match t with
      | .reg .cmd => s.writeCmd v
      | .reg .ilen => s.writeIlen v
      | .reg _ => s
      | .ibuf i => s.writeInput i (v.setWidth 8)
      | .obuf _ => s := by
  have : (BitVec.setWidth 32 v : Word) = v := BitVec.setWidth_eq v
  cases t with
  | reg r => cases r <;> simp only [State.writeTarget, this]
  | ibuf i => rfl
  | obuf i => rfl

/-- A cell write presents the byte whole (R64). -/
@[simp] theorem writeTarget_ibuf (s : State) (b : Byte) (i : Nat) :
    s.writeTarget (n := 1) b (.ibuf i) = s.writeInput i b := by
  have : (BitVec.setWidth 8 b : Byte) = b := BitVec.setWidth_eq b
  simp only [State.writeTarget, this]

end Sys2Proof.Machine
end

