-- ==== Sys2Proof/Tests/Slice0.lean ====
section
/-! SUPPORT. Tests against the worked examples of spec/95_test_vectors.md and, for every obligation with hypotheses, a
named state that meets them. -/

namespace Sys2Proof.Tests

/- One theorem at a time: a thread for each would ask for more memory than a check allows. -/
set_option Elab.async false

open Sys2Proof Sys2Proof.Machine

/-! ### Helpers -/

/-- The reset state with `IBUF[0..)` written and `ILEN` its length. -/
def loaded (x : List Byte) : State :=
  { State.reset with ibuf := Memory.writeSeq [] 0 x, ilen := BitVec.ofNat 32 x.length }

/-- The same with the command word `w` issued. -/
def issued (w : Word) (x : List Byte) : State := (loaded x).issue w

/-- A state with a schedule. -/
def scheduled (s : State) (ts : List Turn) : State := { s with turns := ts }

/-- The state a step or a command answers. -/
def nextOf : Host.Outcome State Fault Refusal → State
  | .next t => t
  | .fault _ => State.reset
  | .refused _ => State.reset

/-- A command's outcome as the host reads it: `STATE`, `ERR`, `ERRPOS` and `OBUF[0..OLEN)`. -/
def shown : Host.Outcome State Fault Refusal → Option (SeqState × BitVec 8 × Word × List Byte)
  | .next t => some (t.seq, t.errCode, t.errpos, t.output)
  | .fault _ => none
  | .refused _ => none

/-- The response to one transaction, the newest entry of the host's log. -/
def answer (s : State) (x : Txn) : Option Response :=
  (nextOf (step (scheduled s [.host x]))).responses.head?

/-- A digest with these first four bytes, the rest zeros. -/
def digest (a b c d : Byte) : Digest := Vector.ofFn fun i => [a, b, c, d].getD i.val 0

/-- A hash function that gives `H(H([00]))` and `H(H([]))` the first bytes of 95_test_vectors.md section 5.2. -/
def tableHash (m : List Byte) : Digest :=
  if m = [0x00] then digest 0x6E 0x34 0x0B 0x9C
  else if m = (digest 0x6E 0x34 0x0B 0x9C).toList then digest 0x14 0x06 0xE0 0x58
  else if m = [] then digest 0xE3 0xB0 0xC4 0x42
  else digest 0x5D 0xF6 0xE0 0xE2

/-! ### WellFormed -/

theorem test_wellFormed_refuses_wide_version : (Instr.encc 65536).wellFormed = false := by decide +kernel

theorem test_wellFormed_accepts_largest_version : (Instr.encc 65535).wellFormed = true := by decide +kernel

/-! ### Decoding: words written out bit by bit from the encoding tables (R93 to R98); 95_test_vectors.md section 7 -/

theorem test_decode_enc : decodeTableWord 32 0b00000000000000000000000000000001 = some .enc := by decide +kernel
theorem test_decode_dec : decodeTableWord 32 0b00000000000000000000000000000010 = some .dec := by decide +kernel
theorem test_decode_encc_23 : decodeTableWord 32 0b00000000000000000001011100000011 = some (.encc 23) := by decide +kernel
theorem test_decode_encc_256 : decodeTableWord 32 0b00000000000000010000000000000011 = some (.encc 256) := by decide +kernel
theorem test_decode_decc : decodeTableWord 32 0b00000000000000000000000000000100 = some .decc := by decide +kernel
theorem test_decode_illegal : ∀ w ∈ [0x00000000, 0x00000005, 0x000000FF, 0xFFFFFFFF, 0x01000001, 0x00000101, 0x00000102,
    0x00001704, 0x01000003, 0x01010003], decodeTableWord 32 w = none := by decide +kernel

/-- R30 and R31 at the ends of the alphabet's ranges, and their neighbours. -/
theorem test_ridx : ([0x31, 0x39, 0x41, 0x48, 0x4A, 0x4E, 0x50, 0x5A, 0x61, 0x6B, 0x6D, 0x7A].map ridx =
      [0, 8, 9, 16, 17, 21, 22, 32, 33, 43, 44, 57].map some) ∧
    ∀ c ∈ [0x00, 0x2F, 0x30, 0x3A, 0x40, 0x49, 0x4F, 0x5B, 0x60, 0x6C, 0x7B, 0x7F, 0x80, 0xE9, 0xFF],
      ridx c = none := by decide +kernel

/-! ### The commands: 95_test_vectors.md sections 2 to 5 -/

theorem test_enc_leading_zeros :
    shown (exec .enc (loaded [0x00, 0x00, 0x01])) = some (.done, 0, 0, [0x31, 0x31, 0x32]) := by decide +kernel

theorem test_enc_two_bytes :
    shown (exec .enc (loaded [0xFF, 0xFF])) = some (.done, 0, 0, [0x4C, 0x55, 0x76]) := by decide +kernel

theorem test_dec_surplus_zero :
    shown (exec .dec (loaded [0x4C, 0x55, 0x76])) = some (.done, 0, 0, [0xFF, 0xFF]) := by decide +kernel

theorem test_dec_least_invalid_index :
    shown (exec .dec (loaded [0x31, 0x4F, 0x30])) = some (.error, 1, 1, []) := by decide +kernel

theorem test_encc_vector : shown (execEnccWith tableHash 0 (loaded [])) =
    some (.done, 0, 0, [0x31, 0x57, 0x68, 0x34, 0x62, 0x68]) := by decide +kernel

theorem test_encc_version_before_length :
    shown (exec (.encc 256) { loaded [] with ilen := 129 }) = some (.error, 2, 0, []) := by decide +kernel

theorem test_decc_vector : shown (execDeccWith tableHash (loaded [0x31, 0x57, 0x68, 0x34, 0x62, 0x68])) =
    some (.done, 0, 0, [0x00]) := by decide +kernel

theorem test_decc_last_checksum_byte_differs :
    shown (execDeccWith tableHash (loaded [0x31, 0x57, 0x68, 0x34, 0x62, 0x69])) = some (.error, 4, 0, []) := by
  decide +kernel

/-- `DIVMOD(0, 256, 58)` on `FF FF FF FF` and `DIVMOD(0, 58, 256)` on `57 57 57 57` (section 4). -/
theorem test_divmod :
    let a := Work.divmod 0 256 58 { Work.reset Params.suggested with wbuf := [0xFF, 0xFF, 0xFF, 0xFF], wlen := 4 }
    let b := Work.divmod 0 58 256 { Work.reset Params.suggested with wbuf := [57, 57, 57, 57], wlen := 4 }
    a.wbuf = [0x04, 0x69, 0xEE, 0x58] ∧ a.rem = 15 ∧ b.wbuf = [0, 13, 8, 9] ∧ b.rem = 0x0F := by decide +kernel

/-! ### Steps: each row as the first command after reset (section 7) -/

theorem test_first_enc : shown (step (State.reset.withFetchWord 32 0x00000001)) = some (.done, 0, 0, []) := by decide +kernel
theorem test_first_dec : shown (step (State.reset.withFetchWord 32 0x00000002)) = some (.done, 0, 0, []) := by decide +kernel
theorem test_first_encc : shown (step (State.reset.withFetchWord 32 0x00FFFF03)) = some (.error, 2, 0, []) := by decide +kernel
theorem test_first_decc : shown (step (State.reset.withFetchWord 32 0x00000004)) = some (.error, 3, 0, []) := by
  decide +kernel
theorem test_first_illegal : shown (step (State.reset.withFetchWord 32 0x01010003)) = some (.error, 5, 0, []) := by
  decide +kernel

/-! ### The bus: section 8, with `B = 0` and `CAP = 128` -/

theorem test_bus_after_reset :
    ([0x00, 0x04, 0x08, 0x0C, 0x10, 0x14].map fun off => answer State.reset (.read off 4)) =
        List.replicate 6 (some (.word 0)) ∧
      answer State.reset (.read 0x20000 1) = some (.byte 0) := by decide +kernel

theorem test_bus_errors :
    [answer State.reset (.read 0x02 4), answer State.reset (.read 0x04 1), answer State.reset (.read 0x18 4),
      answer State.reset (.read 0x10000 4), answer State.reset (.write (0x10000 + 128) 1 0),
      answer State.reset (.read (0x20000 + 266) 1), answer State.reset (.write 0x00 2 1)] =
      List.replicate 7 (some .busError) := by decide +kernel

theorem test_bus_busy : answer (issued 1 []) (.read 0x04 4) = some (.word 1) ∧
    (nextOf (step (scheduled (issued 1 []) [.host (.write 0x10000 1 (0xAB : Byte))]))).ibuf = [] := by decide +kernel

/-- Program P1 of section 9 as a schedule: three cells, `ILEN`, `CMD`, the engine, and the reads. -/
theorem test_program_p1 :
    (match core.run 10 (scheduled State.reset
        [.host (.write 0x10000 1 (0x00 : Byte)), .host (.write 0x10001 1 (0x00 : Byte)),
          .host (.write 0x10002 1 (0x01 : Byte)), .host (.write 0x10 4 (3 : Word)), .host (.write 0x00 4 (1 : Word)),
          .host (.read 0x04 4), .engine, .host (.read 0x04 4), .host (.read 0x14 4), .host (.read 0x20002 1)]) with
      | .next t => (show State from t).responses.take 5
      | .fault _ => []
      | .refused _ => []) =
      [.byte 0x32, .word 3, .word 2, .word 1, .ok] := by decide +kernel

/-! ### Witnesses: for each obligation with hypotheses, a state and operands that meet them, at the bounds of each clause -/

theorem witness_DecodeInvertsEncode : (Instr.encc 65535).wellFormed = true ∧ Instr.enc.wellFormed = true := by decide

theorem witness_EncodeInvertsDecode : decode 0x00FFFF03 = .ok (.encc 65535) ∧ decode 0x00000004 = .ok .decc := by decide

theorem witness_ResetInputGivesTheResetState : (scheduled (issued 1 [0x00]) [.reset]).turns = .reset :: [] := rfl

theorem witness_StepRunsTheLatchedCommand :
    (issued 0x00001703 [0x00]).seq = .busy ∧ (issued 0x00001703 [0x00]).work.legal = true ∧
      decode (issued 0x00001703 [0x00]).latchedWord = .ok (.encc 23) ∧ (issued 0x00001703 [0x00]).turns = [] ∧
      (scheduled (issued 0x00001703 [0x00]) [.engine]).turns = .engine :: [] := by decide +kernel

/-- Also of AcceptedCmdWriteIssues. -/
theorem witness_AcceptedWordRunsNext :
    let s := scheduled (loaded [0x00]) [.host (.write 0 4 (1 : Word)), .engine]
    s.seq ≠ .busy ∧ decode 1 = .ok .enc ∧ s.turns = .host (.write s.params.base 4 (1 : Word)) :: .engine :: [] := by
  decide +kernel

theorem witness_IllegalWordFailsWithIllegalCommand :
    let s := scheduled (loaded [0x00]) [.host (.write 0 4 (5 : Word)), .engine]
    s.seq ≠ .busy ∧ decode 5 = .error .reservedOpcode ∧
      s.turns = .host (.write s.params.base 4 (5 : Word)) :: .engine :: [] := by decide +kernel

theorem witness_EngineRestsOutsideBusy :
    State.reset.seq ≠ .busy ∧ State.reset.turns = [] ∧ (scheduled State.reset [.engine]).turns = .engine :: [] := by
  decide +kernel

/-- Of StateFieldTransitions and StepKeepsTheInvariant: one step of each kind that changes `STATE`. -/
theorem witness_StateFieldTransitions :
    (∃ t, step (scheduled (issued 1 []) [.reset]) = .next t ∧ t.seq = .idle) ∧
      (∃ t, step (scheduled (loaded []) [.host (.write 0 4 (1 : Word))]) = .next t ∧ t.seq = .busy) ∧
      ∃ t, step (issued 1 []) = .next t ∧ t.seq = .done :=
  ⟨⟨_, rfl, rfl⟩, ⟨_, rfl, rfl⟩, ⟨_, rfl, by decide +kernel⟩⟩

/-- Every clause of RegisterReadsReturnTheRegister, in a state with an error. -/
theorem witness_RegisterReadsReturnTheRegister :
    let s := (issued 2 [0x31, 0x30]).raise .invalidCharacter 1
    (3 = match s.seq with | .idle => 0 | .busy => 1 | .done => 2 | .error => 3) ∧ s.err = some .invalidCharacter ∧
      s.errpos = 1 ∧ s.ilen = 2 ∧ s.olen = 0 ∧
      (scheduled s [.host (.read (s.params.base + 0x14) 4)]).turns = .host (.read (s.params.base + 0x14) 4) :: [] := by
  decide +kernel

theorem witness_ReadsHaveNoSideEffects :
    (scheduled State.reset [.host (.read 0x04 4)]).turns = .host (.read 0x04 4) :: [] := rfl

/-- The bounds of OtherAccessesGetABusError: misaligned, narrow, wide, beyond `IBUF`, beyond `OBUF`. -/
theorem witness_OtherAccessesGetABusError :
    ∀ a ∈ [(0x02, 4), (0x18, 4), (0x04, 1), (0x10000, 4), (0x10000 + 128, 1), (0x20000 + 266, 1), (0x00, 2),
        (0x3FFFF, 1)],
      a.1 < 0x40000 ∧
      ¬ (a.2 = 4 ∧ (a.1 = 0x00 ∨ a.1 = 0x04 ∨ a.1 = 0x08 ∨ a.1 = 0x0C ∨ a.1 = 0x10 ∨ a.1 = 0x14)) ∧
      ¬ (a.2 = 1 ∧ ((0x10000 ≤ a.1 ∧ a.1 < 0x10000 + State.reset.params.cap) ∨
        (0x20000 ≤ a.1 ∧ a.1 < 0x20000 + (2 * State.reset.params.cap + 10)))) := by decide +kernel

/-- An instance at a base above 0, for the clause below the block. -/
def raised : Params := { Params.suggested with base := 0x40000, base_aligned := by decide }

theorem witness_AccessesOutsideTheBlockGetABusError :
    0x3FFFF < (State.resetOf raised).params.base ∧ (State.resetOf raised).params.base + 0x40000 ≤ 0x80000 := by decide

/-- Both clauses at the last cell of `IBUF`: the write, and reads in IDLE and, of `IBUF[ERRPOS]`, in ERROR. -/
theorem witness_InputCellReadsAsWritten :
    let s := scheduled State.reset [.host (.write (0x10000 + 127) 1 (0xAB : Byte))]
    let t := scheduled State.reset [.host (.read (0x10000 + 127) 1)]
    let u := scheduled ((issued 2 [0x31, 0x30]).raise .invalidCharacter 1) [.host (.read (0x10000 + 1) 1)]
    127 < s.params.cap ∧ s.seq ≠ .busy ∧
      s.turns = .host (.write (s.params.base + 0x10000 + 127) 1 (0xAB : Byte)) :: [] ∧
      t.turns = .host (.read (t.params.base + 0x10000 + 127) 1) :: [] ∧
      u.seq = .error ∧ u.turns = .host (.read (u.params.base + 0x10000 + u.errpos.toNat) 1) :: [] := by
  decide +kernel

/-- R201: after InvalidCharacter the host reads the offending character at `IBUF[ERRPOS]`; program P4's first command. -/
theorem test_bus_read_offending_character :
    answer (nextOf (exec .dec (issued 2 [0x31, 0x30]))) (.read (0x10000 + 1) 1) = some (.byte 0x30) := by decide +kernel

theorem witness_InputLengthIsStoredWhole :
    let s := scheduled State.reset [.host (.write 0x10 4 (0xFFFFFFFF : Word))]
    s.seq ≠ .busy ∧ s.turns = .host (.write (s.params.base + 0x10) 4 (0xFFFFFFFF : Word)) :: [] := by decide +kernel

/-- A state a completion leaves: `OBUF[0]` within `OLEN`, the last cell beyond it. -/
theorem witness_OutputCellsAreGated :
    let s := (loaded []).complete [0x31]
    s.seq = .done ∧ s.err = none ∧ s.errpos = 0 ∧ s.olen.toNat = 1 ∧ s.output = [0x31] ∧ s.outputCell 1 = 0 ∧
      265 < 2 * s.params.cap + 10 ∧ ¬ (s.seq = .done ∧ 265 < s.olen.toNat) := by decide +kernel

theorem witness_DoneWith : ((loaded []).complete [0x31]).DoneWith [0x31] := by
  refine ⟨rfl, rfl, rfl, rfl, by decide +kernel, fun i h => ?_⟩
  have : ¬ i < 1 := Nat.not_lt.2 h
  rw [State.outputCell, if_neg fun hi => this hi.2]

theorem witness_BusyIgnoresWrites :
    let s := scheduled (issued 1 []) [.host (.write 0x10 4 (7 : Word))]
    s.seq = .busy ∧ s.turns = .host (.write (s.params.base + 0x10) 4 (7 : Word)) :: [] ∧ 127 < s.params.cap := by
  decide +kernel

/-- A BUSY state that meets the invariant. -/
theorem witness_inv_busy : (issued 1 [0x00]).Inv where
  ibuf := by decide +kernel
  obuf := by decide +kernel
  work := by constructor <;> decide +kernel
  latched := by decide +kernel
  err := by decide +kernel
  errpos := by decide +kernel
  errpos_lt := by decide +kernel
  olen := by decide +kernel
  olen_le := by decide +kernel
  result := fun i h => absurd h (by simp [issued])

/-- Of StepKeepsTheInvariant: a DONE state with a result. -/
theorem witness_inv_done : ((issued 1 [0x00]).complete [0x31]).Inv where
  ibuf := by decide +kernel
  obuf := by decide +kernel
  work := by constructor <;> decide +kernel
  latched := by decide +kernel
  err := by decide +kernel
  errpos := by decide +kernel
  errpos_lt := by decide +kernel
  olen := by decide +kernel
  olen_le := by decide +kernel
  result := fun i h => by
    obtain rfl : i = 0 := by
      have : i < 1 := h
      omega
    decide +kernel

theorem witness_BusyReadsAreDefined :
    (scheduled (issued 1 [0x00]) [.host (.read 0x20000 1)]).seq = .busy ∧
      (scheduled (issued 1 [0x00]) [.host (.read 0x20000 1)]).Inv :=
  ⟨rfl, { witness_inv_busy with }⟩

theorem witness_ReadOnlyRegistersIgnoreWrites :
    (scheduled State.reset [.host (.write 0x14 4 (3 : Word))]).turns =
      .host (.write (State.reset.params.base + 0x14) 4 (3 : Word)) :: [] := rfl

/-- A DONE state whose host writes the last cell of `IBUF`, and `ILEN`. -/
theorem witness_InputWritesKeepTheOutcome :
    let x : Turn := .host (.write (0x10000 + 127) 1 (0x31 : Byte))
    let y : Turn := .host (.write 0x10 4 (1 : Word))
    let s := (loaded []).complete [0x31]
    127 < s.params.cap ∧ (∃ t, step (scheduled s [x]) = .next t) ∧ ∃ t, step (scheduled s [y]) = .next t :=
  ⟨by decide, ⟨_, rfl⟩, ⟨_, rfl⟩⟩

theorem witness_CompleteShowsExactlyTheResult :
    (List.replicate 266 (0x31 : Byte)).length ≤ State.reset.params.ocap := by decide +kernel

theorem witness_RaiseShowsExactlyTheError : 4294967295 < 2 ^ 32 := by decide

/-- The largest legal length and the next: of Enc…, Dec…, Encc…, Decc…, LongInputFailsEveryCommand. -/
theorem witness_lengths :
    (loaded (List.replicate 128 0x31)).ilen.toNat ≤ State.reset.params.cap ∧
      State.reset.params.cap < ({ loaded [] with ilen := 129 } : State).ilen.toNat ∧
      (∀ v, Instr.encc 255 = .encc v → v ≤ 255) :=
  ⟨by decide +kernel, by decide +kernel, fun v h => by cases h; decide⟩

theorem witness_DecCompletesWithTheDecoding :
    dec (loaded [0x32]).input = .ok [0x01] ∧ dec (loaded [0x31, 0x30]).input = .error 1 := by decide +kernel

/-- Both sides of the version bound; also of LargeVersionFailsEncc. -/
theorem witness_EnccCompletesWithTheCheckedEncoding : 255 < 256 ∧ 255 ≤ 255 ∧ (loaded []).hashAnswers = true := by decide

/-- Also of ShortDecodingFailsDecc: 0, 3 and 4 decoded bytes. -/
theorem witness_DeccCompletesWithTheVerifiedData :
    dec (loaded [0x31, 0x31, 0x31, 0x30]).input = .error 3 ∧ dec (loaded []).input = .ok [] ∧
      dec (loaded [0x31, 0x31, 0x31]).input = .ok [0, 0, 0] ∧
      dec (loaded [0x31, 0x31, 0x31, 0x31]).input = .ok ([] ++ [0, 0, 0, 0]) ∧ (issued 4 []).err ≠ some .tooShort := by
  decide +kernel

theorem witness_EmptyInputCompletesEmpty : (loaded []).ilen = 0 := rfl

/-- A command that completes and one that fails: of CommandsLeaveTheRestAlone, FailedCommandsExposeNothing,
RetryGivesTheSameOutcome. -/
theorem witness_CommandsLeaveTheRestAlone :
    (∃ t, exec .enc (issued 1 [0x01]) = .next t ∧ t.seq = .done) ∧
      ∃ t, exec .dec (issued 2 [0x30]) = .next t ∧ t.seq = .error ∧ t.err = some .invalidCharacter :=
  ⟨⟨_, rfl, by decide +kernel⟩, ⟨_, rfl, by decide +kernel⟩⟩

/-- Each command ending in an error. -/
theorem witness_CommandsRaiseOnlyTheirErrors :
    ∀ a ∈ [(Instr.enc, ErrorCause.lengthOverflow), (.dec, .lengthOverflow), (.encc 256, .invalidVersion),
        (.encc 255, .lengthOverflow), (.decc, .lengthOverflow)],
      (nextOf (exec a.1 { issued 1 [] with ilen := 129 })).err = some a.2 := by decide +kernel

theorem witness_EngineTurnEndsBusy :
    let s := scheduled (issued 4 [0x30]) [.engine]
    s.seq = .busy ∧ s.hashAnswers = true ∧ s.turns = .engine :: [] := by decide +kernel

theorem witness_SilentHashCoreLeavesEnccBusy :
    let s := { issued 0x0000FF03 [0x00] with hashAnswers := false }
    s.seq = .busy ∧ s.command? = some (.encc 255) ∧ s.ilen.toNat ≤ s.params.cap ∧ s.turns = [] := by decide +kernel

/-- Four decoded bytes, the least that is not too short. -/
theorem witness_SilentHashCoreLeavesDeccBusy :
    let s := { issued 4 [0x31, 0x31, 0x31, 0x31] with hashAnswers := false }
    s.seq = .busy ∧ s.command? = some .decc ∧ s.ilen.toNat ≤ s.params.cap ∧ dec s.input = .ok [0, 0, 0, 0] ∧
      4 ≤ [0, 0, 0, 0].length ∧ s.turns = [] := by decide +kernel

/-- Each clause: ENCC with a legal and a large version, DECC of `1111` (it completes or its checksum differs, whatever
the hash function is) and of `111`. -/
theorem witness_HashRequestsOfEachCommand :
    (∃ t, exec (.encc 255) (issued 0x0000FF03 []) = .next t ∧ t.seq = .done) ∧
      (∃ t, exec (.encc 256) (issued 0x00010003 []) = .next t ∧ t.seq ≠ .done) ∧
      (∃ t, exec .decc (issued 4 [0x31, 0x31, 0x31, 0x31]) = .next t ∧
        (t.seq = .done ∨ t.err = some .checksumMismatch)) ∧
      ∃ t, exec .decc (issued 4 [0x31, 0x31, 0x31]) = .next t ∧ t.seq ≠ .done ∧ t.err ≠ some .checksumMismatch := by
  refine ⟨⟨_, rfl, rfl⟩, ⟨_, rfl, by decide⟩, ?_, ⟨nextOf (exec .decc (issued 4 [0x31, 0x31, 0x31])), rfl,
    by decide +kernel⟩⟩
  have hd : dec (issued 4 [0x31, 0x31, 0x31, 0x31]).input = .ok [0, 0, 0, 0] := by decide +kernel
  rcases execDeccWith_eq Config.hash (issued 4 [0x31, 0x31, 0x31, 0x31]) with
    ⟨h, -⟩ | ⟨-, w, -, ⟨p, h, -⟩ | ⟨b, hb, -, h⟩⟩
  · exact absurd h (by decide +kernel)
  · rw [hd] at h; cases h
  · rw [hd] at hb; cases hb
    rcases h with ⟨h, -⟩ | ⟨-, h, -⟩ | ⟨-, -, -, h⟩ | ⟨-, -, -, h⟩
    · exact absurd h (by decide)
    · exact absurd h (by decide +kernel)
    · exact ⟨_, h, .inl rfl⟩
    · exact ⟨_, h, .inr rfl⟩

/-- Two BUSY states with the same operands and little else in common. -/
theorem witness_OutcomeDependsOnOperandsAlone :
    let s := issued 1 [0x01]
    let t := { (issued 1 [0x01, 0x02]) with ilen := 1, obuf := [(0, 0x55)], responses := [.ok] }
    s.SameOperands t ∧ s.seq = .busy ∧ t.seq = .busy ∧ s.ibuf ≠ t.ibuf ∧
      ∃ s', exec .enc s = .next s' ∧ s'.seq ≠ .busy := by
  refine ⟨⟨rfl, rfl, rfl, fun i hi => ?_⟩, rfl, rfl, by decide +kernel, ⟨_, rfl, by decide +kernel⟩⟩
  obtain rfl : i = 0 := by
    have : i < min 1 128 := hi
    omega
  rfl

/-- Also of ResultLengthsAreBounded. -/
theorem witness_DecodingAndEncodingAreInverse : dec [0x31, 0x32] = .ok [0x00, 0x01] ∧ ∀ c ∈ [0x31, 0x7A], ridx c ≠ none := by
  decide +kernel

theorem witness_EncodingPreservesLeadingZeros : (0x7A : Byte) ∈ enc [0x39] := by decide +kernel

/-- ENC of `00 00 01`, and a state that holds its output as the input. -/
theorem witness_DecAfterEncRestoresTheInput :
    let s := loaded [0x00, 0x00, 0x01]
    let u := loaded [0x31, 0x31, 0x32]
    ∃ t, s.ilen.toNat ≤ s.params.cap ∧ exec .enc s = .next t ∧ t.olen.toNat ≤ t.params.cap ∧ u.params = t.params ∧
      u.ilen = t.olen ∧ ∀ i, i < t.olen.toNat → u.inputCell i = t.outputCell i := by
  refine ⟨nextOf (exec .enc (loaded [0x00, 0x00, 0x01])), by decide +kernel, rfl, by decide +kernel, rfl,
    by decide +kernel, fun i hi => ?_⟩
  have hi3 : i < 3 := by
    have : (nextOf (exec .enc (loaded [0x00, 0x00, 0x01]))).olen.toNat = 3 := by decide +kernel
    omega
  have : i = 0 ∨ i = 1 ∨ i = 2 := by omega
  rcases this with rfl | rfl | rfl <;> decide +kernel

/-- ENCC 255 on the empty payload, whatever the hash function is, and a state that holds its output as the input: the
cells of `OBUF` moved to `IBUF`. -/
theorem witness_DeccAfterEnccRestoresThePayload :
    ∃ t u : State, (loaded []).ilen.toNat ≤ (loaded []).params.cap ∧ (loaded []).hashAnswers = true ∧
      exec (.encc 255) (loaded []) = .next t ∧ t.olen.toNat ≤ t.params.cap ∧ u.params = t.params ∧
      u.hashAnswers = true ∧ u.ilen = t.olen ∧ ∀ i, i < t.olen.toNat → u.inputCell i = t.outputCell i := by
  have hshort : (encc Config.hash (BitVec.ofNat 8 255) []).length ≤ 10 := by
    rw [← (Work.encodeChecked_spec Config.hash 10 255 [] (Work.reset Params.suggested) (by decide)).1]
    exact Work.emitted_length_le _ _
  rcases execEnccWith_eq Config.hash 255 (loaded []) with ⟨h, -⟩ | ⟨-, h, -⟩ | ⟨-, -, h, -⟩ | ⟨-, -, -, -, w, -, h⟩
  · exact absurd h (by decide)
  · exact absurd h (by decide +kernel)
  · exact absurd h (by decide)
  · have hin : (loaded []).input = [] := rfl
    rw [hin] at h
    generalize encc Config.hash (BitVec.ofNat 8 255) [] = out at h hshort
    obtain ⟨t, ht⟩ : ∃ t, t = (((loaded []).setWork w).logCsum Config.hash [BitVec.ofNat 8 255]).complete out := ⟨_, rfl⟩
    rw [← ht] at h
    have holen : t.olen.toNat = out.length := by
      rw [ht, State.complete_olen, BitVec.toNat_ofNat]; omega
    have hcap : t.params.cap = 128 := by rw [ht]; rfl
    refine ⟨t, { t with ilen := t.olen, ibuf := t.obuf }, by decide, rfl, h, by omega, rfl, by rw [ht]; rfl, rfl,
      fun i hi => ?_⟩
    have hlt : i < out.length := by omega
    have hread : t.obuf.read? i = some out[i] := by
      rw [ht, State.complete_obuf, Memory.read?_writeSeq, dif_pos ⟨Nat.zero_le _, by omega⟩]
      simp
    have hdone : t.seq = .done := by rw [ht]; rfl
    rw [State.outputCell, if_pos ⟨hdone, hi⟩]
    simp only [State.inputCell, hread, Option.getD_some]

/-- Both instances, at the ends of the range: a whole number, and `first = WLEN`. -/
theorem witness_DivmodDividesWithRemainder :
    let w : Work := { Work.reset Params.suggested with wbuf := [57, 255], wlen := 1 }
    (0 ≤ w.wlen ∧ w.wlen ≤ w.wbuf.length ∧ ∀ c ∈ w.number 0, c.toNat < 58) ∧ (1 ≤ w.wlen ∧ w.number 1 = []) := by
  decide +kernel

theorem witness_AccumulatorBoundIsExact : (57 : Byte).toNat < 58 ∧ (255 : Byte).toNat < 256 := by decide

/-- Two states that differ in hidden state, and behind the read gate of `OBUF`. -/
theorem witness_HiddenStateCannotBeObserved :
    let s := issued 1 [0x00]
    let t := { s with work := { s.work with wbuf := List.replicate 133 0x55, z := 7 }, obuf := [(0, 0x55)] }
    s.Twins t ∧ s ≠ t :=
  ⟨{ params := rfl
     outcome := ⟨rfl, rfl, rfl, rfl, fun _ => rfl⟩
     ilen := rfl
     ibuf := rfl
     command := fun _ => rfl
     powerOn := rfl
     hashAnswers := rfl
     hashRequests := rfl
     turns := rfl
     responses := rfl },
   by decide +kernel⟩

end Sys2Proof.Tests
end

section
/-! ## How a command ends

The execution of a command as one value of its operands: what it depends on (R34), and what it leaves (R209, R210). -/

namespace Sys2Proof.Machine

/-- How the execution of a command ends, with the messages the hash core has answered on the way (R81). -/
inductive Ending where
  /-- The hash core does not answer, and the engine waits (R82). -/
  | waits
  /-- Error completion (R210). -/
  | fails (e : ErrorCause) (pos : Nat) (requests : List (List Byte))
  /-- Successful completion (R209). -/
  | completes (out : List Byte) (requests : List (List Byte))

/-- The two requests of CSUM (R151). -/
def csumRequests (H : HashFn) (m : List Byte) : List (List Byte) := [m, (H m).toList]

/-- How ENCC ends, once the version and the length are legal (R156). -/
def Ending.ofEncc (answers : Bool) (m : List Byte) (out : List Byte) : Ending :=
  if answers then .completes out (csumRequests Config.hash m) else .waits

/-- How DECC ends, once the input is decoded to `b` (R161). -/
def Ending.ofDecc (answers : Bool) (b : List Byte) : Ending :=
  let data := b.take (b.length - 4)
  if b.length < 4 then .fails .tooShort 0 []
  else if !answers then .waits
  else if (csum Config.hash data).toList = b.drop (b.length - 4) then
    .completes data (csumRequests Config.hash data)
  else .fails .checksumMismatch 0 (csumRequests Config.hash data)

/-- How a command ends, by whether the hash core answers and by its input, which is none where `ILEN > CAP`. -/
def Ending.ofCommand (answers : Bool) : Instr → Option (List Byte) → Ending
  | .enc, some x => .completes (enc x) []
  | .dec, some x =>
    match dec x with
    | .error p => .fails .invalidCharacter p []
    | .ok b => .completes b []
  | .encc ver, some x =>
    if 255 < ver then .fails .invalidVersion 0 []
    else .ofEncc answers (BitVec.ofNat 8 ver :: x) (encc Config.hash (BitVec.ofNat 8 ver) x)
  | .decc, some x =>
    match dec x with
    | .error p => .fails .invalidCharacter p []
    | .ok b => .ofDecc answers b
  | .encc ver, none => .fails (if 255 < ver then .invalidVersion else .lengthOverflow) 0 []
  | .enc, none => .fails .lengthOverflow 0 []
  | .dec, none => .fails .lengthOverflow 0 []
  | .decc, none => .fails .lengthOverflow 0 []

/-- The input of a command, none where `ILEN > CAP` (R206). -/
def State.operand? (s : State) : Option (List Byte) := if s.inputTooLong then none else some s.input

/-- How `i` ends in `s`. -/
def State.ending (s : State) (i : Instr) : Ending := Ending.ofCommand s.hashAnswers i s.operand?

/-- How the engine's turn ends a BUSY state: with its command, or with IllegalCommand (R205). -/
def State.turnEnding (s : State) : Ending :=
  match s.command? with
  | some i => s.ending i
  | none => .fails .illegalCommand 0 []

/-- The hash core has answered these messages. -/
def State.logRequests (s : State) (ms : List (List Byte)) : State :=
  { s with hashRequests := s.hashRequests ++ ms }

/-- `s` after an ending that leaves the hidden state `w`. -/
def State.settle (s : State) (w : Work) : Ending → State
  | .waits => s
  | .fails e pos ms => ((s.setWork w).logRequests ms).raise e pos
  | .completes out ms => ((s.setWork w).logRequests ms).complete out

/-- The result fits `OBUF`, and a position other than 0 is that of an invalid character, inside `IBUF` (R26, R28). -/
def Ending.Bounded (p : Params) : Ending → Prop
  | .waits => True
  | .fails e pos _ => (e ≠ .invalidCharacter → pos = 0) ∧ pos < p.cap
  | .completes out _ => out.length ≤ p.ocap

/-- A hidden state that still has the latches of `w`, and is in its ranges if `w` was. -/
structure Work.Kept (p : Params) (w v : Work) : Prop where
  lop : v.lop = w.lop
  lver : v.lver = w.lver
  legal : v.legal = w.legal
  fits : w.Fits p → v.Fits p

/-- The outcome `o` is that of the ending `e` in `s`, whose bounds hold, for some hidden state that is kept. -/
def State.Ends (s : State) (o : Host.Outcome State Fault Refusal) (e : Ending) : Prop :=
  e.Bounded s.params ∧ ∃ w, s.work.Kept s.params w ∧ o = .next (s.settle w e)

/-! ### Small lemmas -/

@[simp] theorem State.logRequests_nil (s : State) : s.logRequests [] = s := by
  simp [State.logRequests]

@[simp] theorem State.settle_fails_nil (s : State) (w : Work) (e : ErrorCause) (pos : Nat) :
    s.settle w (.fails e pos []) = (s.setWork w).raise e pos := by
  simp [State.settle]

@[simp] theorem State.settle_completes_nil (s : State) (w : Work) (out : List Byte) :
    s.settle w (.completes out []) = (s.setWork w).complete out := by
  simp [State.settle]

theorem State.operand?_of_long {s : State} (h : s.params.cap < s.ilen.toNat) : s.operand? = none := by
  rw [State.operand?, if_pos (s.inputTooLong_iff.2 h)]

theorem State.operand?_of_fits {s : State} (h : s.ilen.toNat ≤ s.params.cap) : s.operand? = some s.input := by
  rw [State.operand?, if_neg fun hl => absurd (s.inputTooLong_iff.1 hl) (by omega)]

theorem Work.Kept.refl (p : Params) (w : Work) : w.Kept p w := ⟨rfl, rfl, rfl, id⟩

/-- What the laws of the commands say of the hidden state, in the terms of the invariant. -/
theorem Work.After.kept {p : Params} {n : Nat} {w v : Work} (h : Work.After p n w v) (hn : n ≤ p.wcap) :
    w.Kept p v := by
  refine ⟨h.lop, h.lver, h.legal, fun hw => ?_⟩
  obtain ⟨hlen, ⟨hz, hstart, hwlen, hepos, hebuf, hacc⟩ | ⟨hz, hstart, hwlen, hepos, hebuf, hacc⟩⟩ := h.ran hw.wbuf hn
  · exact ⟨hlen.trans hw.wbuf, by rw [hz, hstart]; exact hw.z, by rw [hstart, hwlen]; exact hw.start,
      by rw [hwlen]; exact hw.wlen, by rw [hepos]; exact hw.epos, by rw [hebuf]; exact hw.ebuf,
      by rw [hacc]; exact hw.acc⟩
  · exact ⟨hlen.trans hw.wbuf, hz, hstart.le, hwlen.trans hn, hepos, hebuf hw.ebuf, hacc hw.acc⟩

/-- An input that fits `IBUF` fits `WBUF`. -/
theorem input_le_wcap (p : Params) {n : Nat} (h : n ≤ p.cap) : n ≤ p.wcap := by
  obtain ⟨-, -, hroom⟩ := input_fits p h
  omega

/-- An error without a position leaves the hidden state as it was. -/
theorem State.ends_raise (s : State) (e : ErrorCause) : s.Ends (.next (s.raise e 0)) (.fails e 0 []) :=
  ⟨⟨fun _ => rfl, s.params.cap_pos⟩, s.work, .refl _ _, by rw [State.settle_fails_nil]; rfl⟩

/-- A silent hash core leaves the state as it was. -/
theorem State.ends_wait (s : State) : s.Ends (.next s) .waits := ⟨trivial, s.work, .refl _ _, rfl⟩

/-! ### One lemma per command -/

theorem execEnc_ends (s : State) : s.Ends (execEnc s) (s.ending .enc) := by
  rcases execEnc_eq s with ⟨hlong, h⟩ | ⟨hle, hlen, w, h, hw⟩
  · rw [h, State.ending, State.operand?_of_long hlong]
    exact s.ends_raise _
  · rw [h, State.ending, State.operand?_of_fits hle]
    exact ⟨hlen, w, hw.kept (input_le_wcap s.params hle), by rw [Ending.ofCommand, State.settle_completes_nil]⟩

theorem execDec_ends (s : State) : s.Ends (execDec s) (s.ending .dec) := by
  rcases execDec_eq s with ⟨hlong, h⟩ | ⟨hle, w, hw, ⟨p, hd, hp, h⟩ | ⟨b, hd, hlen, h⟩⟩
  · rw [h, State.ending, State.operand?_of_long hlong]
    exact s.ends_raise _
  · simp only [h, State.ending, State.operand?_of_fits hle, Ending.ofCommand, hd]
    exact ⟨⟨fun hne => absurd rfl hne, by omega⟩, w, hw.kept (input_le_wcap s.params hle),
      by rw [State.settle_fails_nil]⟩
  · simp only [h, State.ending, State.operand?_of_fits hle, Ending.ofCommand, hd]
    exact ⟨hlen, w, hw.kept (input_le_wcap s.params hle), by rw [State.settle_completes_nil]⟩

theorem execEncc_ends (ver : Nat) (s : State) : s.Ends (execEncc ver s) (s.ending (.encc ver)) := by
  rcases execEnccWith_eq Config.hash ver s with
    ⟨hv, h⟩ | ⟨hv, hlong, h⟩ | ⟨hv, hle, ha, h⟩ | ⟨hv, hle, ha, hlen, w, hw, h⟩
  · have hend : s.ending (.encc ver) = .fails .invalidVersion 0 [] := by
      rw [State.ending]; cases s.operand? <;> simp only [Ending.ofCommand, if_pos hv]
    rw [execEncc, h, hend]
    exact s.ends_raise _
  · rw [execEncc, h, State.ending, State.operand?_of_long hlong, Ending.ofCommand, if_neg (by omega)]
    exact s.ends_raise _
  · rw [execEncc, h, State.ending, State.operand?_of_fits hle, Ending.ofCommand, if_neg (by omega), ha]
    exact s.ends_wait
  · rw [execEncc, h, State.ending, State.operand?_of_fits hle, Ending.ofCommand, if_neg (by omega), ha]
    exact ⟨hlen, w, hw.kept (input_fits s.params hle).2.2, rfl⟩

theorem execDecc_ends (s : State) : s.Ends (execDecc s) (s.ending .decc) := by
  rcases execDeccWith_eq Config.hash s with ⟨hlong, h⟩ | ⟨hle, w, hw, ⟨p, hd, hp, h⟩ | ⟨b, hd, hlen, h⟩⟩
  · rw [execDecc, h, State.ending, State.operand?_of_long hlong]
    exact s.ends_raise _
  · simp only [execDecc, h, State.ending, State.operand?_of_fits hle, Ending.ofCommand, hd]
    exact ⟨⟨fun hne => absurd rfl hne, by omega⟩, w, hw.kept (input_le_wcap s.params hle),
      by rw [State.settle_fails_nil]⟩
  · have hkept := hw.kept (input_le_wcap s.params hle)
    have hend : s.ending .decc = .ofDecc s.hashAnswers b := by
      simp only [State.ending, State.operand?_of_fits hle, Ending.ofCommand, hd]
    rw [execDecc, hend]
    rcases h with ⟨h4, h⟩ | ⟨h4, ha, h⟩ | ⟨h4, ha, hc, h⟩ | ⟨h4, ha, hc, h⟩
    · rw [h, Ending.ofDecc, if_pos h4]
      exact ⟨⟨fun _ => rfl, s.params.cap_pos⟩, w, hkept, by rw [State.settle_fails_nil]⟩
    · rw [h, Ending.ofDecc, if_neg (by omega), ha]
      exact s.ends_wait
    · rw [h, Ending.ofDecc, if_neg (by omega), ha, if_neg (by decide), if_pos hc]
      exact ⟨(List.length_take_le' _ _).trans hlen, w, hkept, rfl⟩
    · rw [h, Ending.ofDecc, if_neg (by omega), ha, if_neg (by decide), if_neg hc]
      exact ⟨⟨fun _ => rfl, s.params.cap_pos⟩, w, hkept, rfl⟩

/-- Every command ends as its operands say (R34), inside the bounds of the registers and of the hidden state. -/
theorem exec_ends (i : Instr) (s : State) : s.Ends (exec i s) (s.ending i) := by
  cases i with
  | enc => exact execEnc_ends s
  | dec => exact execDec_ends s
  | encc ver => exact execEncc_ends ver s
  | decc => exact execDecc_ends s

/-- What the engine's turn does while BUSY (R205, R207). -/
theorem engineTurn_ends {s : State} (h : s.seq = .busy) : s.Ends (engineTurn s) s.turnEnding := by
  cases hc : s.command? with
  | some i =>
    rw [engineTurn_of_command h hc, State.turnEnding, hc]
    exact exec_ends i s
  | none =>
    rw [engineTurn_of_illegal h hc, State.turnEnding, hc]
    exact s.ends_raise _

/-! ### What an ending shows -/

theorem State.settle_seq (s : State) (w : Work) {e : Ending} (h : e ≠ .waits) :
    (s.settle w e).seq = .done ∨ (s.settle w e).seq = .error := by
  cases e with
  | waits => exact absurd rfl h
  | fails e pos ms => exact .inr rfl
  | completes out ms => exact .inl rfl

/-- After a completion a cell of `OBUF` reads as its result says, whatever the state was. -/
theorem State.outputCell_complete (s : State) (out : List Byte) (i : Nat) :
    (s.complete out).outputCell i = if i < (BitVec.ofNat 32 out.length).toNat then out.getD i 0 else 0 := by
  simp only [State.outputCell, State.complete_seq, State.complete_olen, State.complete_obuf, true_and]
  split
  next hi =>
    have hlt : i < out.length := lt_of_lt_of_le hi (by rw [BitVec.toNat_ofNat]; exact Nat.mod_le _ _)
    rw [Memory.read?_writeSeq, dif_pos ⟨Nat.zero_le _, by omega⟩]
    simp [List.getElem?_eq_getElem hlt]
  next => rfl

/-- Outside DONE no cell of `OBUF` can be read (R32). -/
theorem State.outputCell_of_not_done {s : State} (h : s.seq ≠ .done) (i : Nat) : s.outputCell i = 0 :=
  if_neg fun hi => h hi.1

/-- The same ending shows the same outcome, whatever states it ends. -/
theorem State.settle_sameOutcome (s t : State) (w v : Work) {e : Ending} (h : e ≠ .waits) :
    (s.settle w e).SameOutcome (t.settle v e) := by
  cases e with
  | waits => exact absurd rfl h
  | fails e pos ms =>
    exact ⟨rfl, rfl, rfl, rfl, fun i => by
      rw [State.outputCell_of_not_done (by simp [State.settle]), State.outputCell_of_not_done (by simp [State.settle])]⟩
  | completes out ms =>
    exact ⟨rfl, rfl, rfl, rfl, fun i => by simp only [State.settle, State.outputCell_complete]⟩

/-! ### What an ending depends on -/

theorem State.SameOperands.operand?_eq {s t : State} (h : s.SameOperands t) : s.operand? = t.operand? := by
  obtain ⟨hparams, hilen, -, hcells⟩ := h
  by_cases hlong : s.params.cap < s.ilen.toNat
  · rw [State.operand?_of_long hlong, State.operand?_of_long (by rwa [← hparams, ← hilen])]
  · have hinput : s.input = t.input := by
      rw [State.input, State.input, ← hilen]
      exact List.map_congr_left fun i hi => hcells i (by rw [List.mem_range] at hi; omega)
    rw [State.operand?_of_fits (by omega), State.operand?_of_fits (by rw [← hparams, ← hilen]; omega), hinput]

/-- A command ends alike on the same operands (R34). -/
theorem State.SameOperands.ending_eq {s t : State} (h : s.SameOperands t) (i : Instr) :
    s.ending i = t.ending i := by
  obtain ⟨-, -, hans, -⟩ := id h
  rw [State.ending, State.ending, h.operand?_eq, hans]

end Sys2Proof.Machine

open Sys2Proof Sys2Proof.Machine

/-- Settles O43: the ending is a function of the operands, and what it shows depends on nothing else. -/
theorem outcomeDependsOnOperandsAlone : Obligations.OutcomeDependsOnOperandsAlone := by
  intro i s t s' hsame hs _ hexec hend
  obtain ⟨-, w, -, hw⟩ := exec_ends i s
  obtain ⟨-, v, -, hv⟩ := exec_ends i t
  rw [← hsame.ending_eq i] at hv
  obtain rfl : s' = s.settle w (s.ending i) := Host.Outcome.next.inj (hexec.symm.trans hw)
  refine ⟨_, hv, State.settle_sameOutcome s t w v fun hwaits => hend ?_⟩
  rw [hwaits]
  exact hs

end

section
/-! ## Transactions and steps, said once (R20, R61 to R66) -/

namespace Sys2Proof.Machine

/-- Only a 4-byte access at `BASE` reaches `CMD` (R61, R63). -/
theorem ofAccess_eq_cmd {p : Params} {addr n : Nat} (h : Target.ofAccess p addr n = some (.reg .cmd)) :
    addr = p.base ∧ n = 4 := by
  unfold Target.ofAccess at h
  split at h
  next => cases h
  next hlow =>
    split at h
    next hn =>
      refine ⟨?_, hn⟩
      unfold Reg.atOffset at h
      split at h
      next hoff => omega
      next => split_ifs at h <;> cases h
    next =>
      unfold Target.cellAtOffset at h
      split_ifs at h <;> cases h

/-- Only cells below `CAP` are reached as `IBUF` (R61). -/
theorem ofAccess_eq_ibuf {p : Params} {addr n i : Nat} (h : Target.ofAccess p addr n = some (.ibuf i)) :
    i < p.cap := by
  unfold Target.ofAccess at h
  split at h
  next => cases h
  next =>
    split at h
    next => cases hr : Reg.atOffset (addr - p.base) <;> rw [hr] at h <;> cases h
    next =>
      unfold Target.cellAtOffset at h
      split_ifs at h with h1 hin
      · rw [Option.some.injEq, Target.ibuf.injEq] at h
        omega
      · cases h

/-- Everything a transaction can do: respond alone, or issue, or store to `ILEN` or `IBUF`, these three outside BUSY only
(R66, R73). -/
inductive State.Transacts (s : State) (x : Txn) : State → Prop where
  | responds (r : Response) : s.Transacts x (s.respond r)
  | issues (w : Word) (hx : x = .write s.params.base 4 w) (hs : s.seq ≠ .busy) : s.Transacts x ((s.issue w).respond .ok)
  | storesLength (v : Word) (hs : s.seq ≠ .busy) : s.Transacts x ({ s with ilen := v }.respond .ok)
  | storesCell (i : Nat) (b : Byte) (hi : i < s.params.cap) (hs : s.seq ≠ .busy) :
      s.Transacts x ({ s with ibuf := s.ibuf.write i b }.respond .ok)

theorem transact_transacts (s : State) (x : Txn) : s.Transacts x (s.transact x) := by
  cases x with
  | read addr n => rw [transact_read]; exact .responds _
  | write addr n v =>
    rw [transact_write]
    cases ht : Target.ofAccess s.params addr n with
    | none => exact .responds _
    | some t =>
      by_cases hs : s.seq = .busy
      · have hkeep : s.writeTarget v t = s := by
          cases t with
          | reg r => cases r <;> simp only [State.writeTarget, State.writeCmd, State.writeIlen, if_pos hs]
          | ibuf i => simp only [State.writeTarget, State.writeInput, if_pos hs]
          | obuf i => rfl
        simp only [hkeep]
        exact .responds _
      · cases t with
        | reg r =>
          cases r with
          | cmd =>
            obtain ⟨rfl, rfl⟩ := ofAccess_eq_cmd ht
            simp only [writeTarget_word, State.writeCmd, if_neg hs]
            exact .issues v rfl hs
          | ilen =>
            simp only [State.writeTarget, State.writeIlen, if_neg hs]
            exact .storesLength _ hs
          | status => exact .responds _
          | err => exact .responds _
          | errpos => exact .responds _
          | olen => exact .responds _
        | ibuf i =>
          simp only [State.writeTarget, State.writeInput, if_neg hs]
          exact .storesCell i _ (ofAccess_eq_ibuf ht) hs
        | obuf i => exact .responds _

/-- The engine's turn leaves `STATE` or takes BUSY to DONE or ERROR (R104). -/
theorem engineTurn_seq {s t : State} (h : engineTurn s = .next t) :
    t.seq = s.seq ∨ (s.seq = .busy ∧ (t.seq = .done ∨ t.seq = .error)) := by
  by_cases hbusy : s.seq = .busy
  · obtain ⟨-, w, -, hw⟩ := engineTurn_ends hbusy
    obtain rfl := Host.Outcome.next.inj (h.symm.trans hw)
    by_cases hwaits : s.turnEnding = .waits
    · rw [hwaits]
      exact .inl rfl
    · exact .inr ⟨hbusy, State.settle_seq s w hwaits⟩
  · obtain rfl := Host.Outcome.next.inj (h.symm.trans (engineTurn_of_not_busy hbusy))
    exact .inl rfl

/-- With the engine's turn scheduled a step is the engine's (R20). -/
theorem step_of_engine {s : State} {ts : List Turn} (h : s.turns = .engine :: ts) :
    step s = engineTurn { s with turns := ts } := step_of_cons h

/-- A scheduled 4-byte read at the offset of a register (R63, R66). -/
theorem step_of_regRead {s : State} {off : Nat} {r : Reg} {ts : List Turn} (hr : Reg.atOffset off = some r)
    (h : s.turns = .host (.read (s.params.base + off) 4) :: ts) :
    step s = .next { s with turns := ts, responses := .word (s.readReg r) :: s.responses } := by
  rw [step_of_cons h, takeTurn, transact_read]
  simp only [ofAccess_reg, hr, Option.map_some]
  cases r <;> rfl

/-- A scheduled 4-byte write at the offset of a register (R63, R66). -/
theorem step_of_regWrite {s : State} {off : Nat} {r : Reg} {v : Word} {ts : List Turn}
    (hr : Reg.atOffset off = some r) (h : s.turns = .host (.write (s.params.base + off) 4 v) :: ts) :
    step s = .next ((State.writeTarget { s with turns := ts } (n := 4) v (.reg r)).respond .ok) := by
  rw [step_of_cons h, takeTurn, transact_write]
  simp only [ofAccess_reg, hr, Option.map_some]

end Sys2Proof.Machine

open Sys2Proof Sys2Proof.Machine

/-- Settles O15: by the agent whose turn it is, and by what it can do. -/
theorem stateFieldTransitions : Obligations.StateFieldTransitions := by
  intro s t hstep
  cases hts : s.turns with
  | nil =>
    rw [step_of_nil hts] at hstep
    exact (engineTurn_seq hstep).imp_right fun h => .inr (.inr ⟨.inl rfl, h⟩)
  | cons turn ts =>
    rw [step_of_cons hts] at hstep
    cases turn with
    | engine => exact (engineTurn_seq (s := { s with turns := ts }) hstep).imp_right fun h => .inr (.inr ⟨.inr rfl, h⟩)
    | reset =>
      obtain rfl := Host.Outcome.next.inj hstep
      exact .inr (.inl ⟨rfl, rfl⟩)
    | hashCore answers =>
      obtain rfl := Host.Outcome.next.inj hstep
      exact .inl rfl
    | host x =>
      obtain rfl := Host.Outcome.next.inj hstep
      have htransacts := transact_transacts { s with turns := ts } x
      generalize State.transact { s with turns := ts } x = u at htransacts
      cases htransacts with
      | responds r => exact .inl rfl
      | issues w hx hs => exact .inr (.inr (.inl ⟨⟨w, by rw [hx]; rfl⟩, hs, rfl⟩))
      | storesLength v hs => exact .inl rfl
      | storesCell i b hi hs => exact .inl rfl

/-- Settles O6: the 256 codes, each looked up in the table and in the ranges. -/
theorem reverseIndexHasItsRanges : Obligations.ReverseIndexHasItsRanges := by
  unfold Obligations.ReverseIndexHasItsRanges
  decide +kernel

/-- Settles O7: the values of the reset state, register by register; IDLE is not DONE, so `OBUF` is gated. -/
theorem resetStateReadsZero : Obligations.ResetStateReadsZero := by
  refine fun p => ⟨rfl, fun r => ?_, State.outputCell_of_not_done (by simp [State.resetOf])⟩
  cases r <;> rfl

/-- Settles O10: the command in execution is the one that the latched word decodes to. -/
theorem stepRunsTheLatchedCommand : Obligations.StepRunsTheLatchedCommand := by
  intro s i hs hlegal hdecode
  have hcommand : s.command? = some i := by rw [State.command?, if_pos hlegal, hdecode]; rfl
  refine ⟨fun h => ?_, fun ts h => ?_⟩
  · rw [step_of_nil h, engineTurn_of_command hs hcommand]
  · rw [step_of_engine h]
    exact engineTurn_of_command (s := { s with turns := ts }) hs hcommand

/-- Settles O14: the engine's turn outside BUSY answers the state it finds. -/
theorem engineRestsOutsideBusy : Obligations.EngineRestsOutsideBusy := by
  refine fun s hs => ⟨fun h => ?_, fun ts h => ?_⟩
  · rw [step_of_nil h, engineTurn_of_not_busy hs]
  · rw [step_of_engine h]
    exact engineTurn_of_not_busy (s := { s with turns := ts }) hs

/-- Settles O16: each offset is that of a register, whose value is spelled out by the clause. -/
theorem registerReadsReturnTheRegister : Obligations.RegisterReadsReturnTheRegister := by
  intro s off v ts h hv
  suffices hreg : ∃ r, Reg.atOffset off = some r ∧ v = s.readReg r by
    obtain ⟨r, hoff, rfl⟩ := hreg
    exact step_of_regRead hoff h
  rcases hv with ⟨rfl, rfl⟩ | ⟨rfl, hv⟩ | ⟨rfl, hv⟩ | ⟨rfl, rfl⟩ | ⟨rfl, rfl⟩ | ⟨rfl, rfl⟩
  · exact ⟨.cmd, rfl, rfl⟩
  · refine ⟨.status, rfl, BitVec.eq_of_toNat_eq (hv.trans ?_)⟩
    simp only [State.readReg, State.statusWord]
    cases s.seq <;> rfl
  · refine ⟨.err, rfl, BitVec.eq_of_toNat_eq (hv.trans ?_)⟩
    simp only [State.readReg, State.errWord, State.errCode]
    rcases s.err with - | e
    · rfl
    · cases e <;> rfl
  · exact ⟨.errpos, rfl, rfl⟩
  · exact ⟨.ilen, rfl, rfl⟩
  · exact ⟨.olen, rfl, rfl⟩

/-- Settles O21: the write reaches `ILEN`, which outside BUSY takes the whole word. -/
theorem inputLengthIsStoredWhole : Obligations.InputLengthIsStoredWhole := by
  intro s v ts hs h
  rw [step_of_regWrite (off := 0x10) (r := .ilen) rfl h, writeTarget_word]
  simp only [State.writeIlen, if_neg hs]
  rfl

/-- Settles O25: each offset is that of a register that takes no write. -/
theorem readOnlyRegistersIgnoreWrites : Obligations.ReadOnlyRegistersIgnoreWrites := by
  intro s off v ts hoff h
  rcases hoff with rfl | rfl | rfl | rfl
  · exact step_of_regWrite (r := .status) rfl h
  · exact step_of_regWrite (r := .err) rfl h
  · exact step_of_regWrite (r := .errpos) rfl h
  · exact step_of_regWrite (r := .olen) rfl h

end

section
/-! ## The invariant is kept (R25 to R32, R40)

`State.Inv` speaks of the block alone. Each operation keeps it, and a step is one of them. -/

namespace Sys2Proof.Machine

/-- The invariant is blind to `ILEN` and to everything outside the block. -/
theorem State.Inv.outside {s : State} (h : s.Inv) (ilen : Word) (powerOn : Nat) (answers : Bool)
    (requests : List (List Byte)) (ts : List Turn) (rs : List Response) :
    State.Inv { s with ilen := ilen, powerOn := powerOn, hashAnswers := answers, hashRequests := requests,
                       turns := ts, responses := rs } :=
  ⟨h.ibuf, h.obuf, h.work, h.latched, h.err, h.errpos, h.errpos_lt, h.olen, h.olen_le, h.result⟩

theorem State.Inv.setTurns {s : State} (h : s.Inv) (ts : List Turn) : State.Inv { s with turns := ts } :=
  h.outside s.ilen s.powerOn s.hashAnswers s.hashRequests ts s.responses

theorem State.Inv.respond {s : State} (h : s.Inv) (r : Response) : (s.respond r).Inv :=
  h.outside s.ilen s.powerOn s.hashAnswers s.hashRequests s.turns (r :: s.responses)

theorem State.Inv.setIlen {s : State} (h : s.Inv) (v : Word) : State.Inv { s with ilen := v } :=
  h.outside v s.powerOn s.hashAnswers s.hashRequests s.turns s.responses

theorem State.Inv.setHashAnswers {s : State} (h : s.Inv) (answers : Bool) : State.Inv { s with hashAnswers := answers } :=
  h.outside s.ilen s.powerOn answers s.hashRequests s.turns s.responses

theorem State.Inv.logRequests {s : State} (h : s.Inv) (ms : List (List Byte)) : (s.logRequests ms).Inv :=
  h.outside s.ilen s.powerOn s.hashAnswers (s.hashRequests ++ ms) s.turns s.responses

theorem State.Inv.writeCell {s : State} (h : s.Inv) {i : Nat} (b : Byte) (hi : i < s.params.cap) :
    State.Inv { s with ibuf := s.ibuf.write i b } :=
  { h with ibuf := Memory.wf_write h.ibuf b hi }

/-- Hidden state that is kept has its ranges and the word it had latched. -/
theorem State.Inv.setWork {s : State} (h : s.Inv) {w : Work} (hw : s.work.Kept s.params w) : (s.setWork w).Inv where
  ibuf := h.ibuf
  obuf := h.obuf
  work := hw.fits h.work
  latched hl := by
    have hlatched := h.latched (hw.legal ▸ hl)
    rwa [State.latchedWord, State.setWork_work, hw.lop, hw.lver]
  err := h.err
  errpos := h.errpos
  errpos_lt := h.errpos_lt
  olen := h.olen
  olen_le := h.olen_le
  result := h.result

/-- What is latched of a word whose `RSV` is 0 decodes as the word does (R207; log 22). -/
theorem decode_latched {w : Word} (h : rsvField w = 0) : decode (assemble 0 (verField w) (opField w)) = decode w := by
  obtain ⟨hrsv, hver, hop⟩ := Laws.EncodeFields.fields_assemble 0 (verField w) (opField w)
  simp only [decode, hrsv, hver, hop, h]

/-- A legal word has `RSV = 0` (R98). -/
theorem rsvField_of_isLegal {w : Word} (h : isLegal w = true) : rsvField w = 0 := by
  by_contra hne
  rw [isLegal, decode, if_pos hne] at h
  cases h

theorem State.Inv.issue {s : State} (h : s.Inv) (w : Word) : (s.issue w).Inv where
  ibuf := h.ibuf
  obuf := h.obuf
  work := ⟨h.work.wbuf, h.work.z, h.work.start, h.work.wlen, h.work.epos, h.work.ebuf, h.work.acc⟩
  latched hl := by
    have hlegal : isLegal w = true := hl
    show isLegal (assemble 0 (verField w) (opField w)) = true
    rwa [isLegal, decode_latched (rsvField_of_isLegal hlegal)]
  err := by simp
  errpos _ := rfl
  errpos_lt := s.params.cap_pos
  olen _ := rfl
  olen_le := Nat.zero_le _
  result i hi := absurd hi (Nat.not_lt_zero i)

theorem State.Inv.complete {s : State} (h : s.Inv) {out : List Byte} (hout : out.length ≤ s.params.ocap) :
    (s.complete out).Inv where
  ibuf := h.ibuf
  obuf := Memory.wf_writeSeq out h.obuf 0 (by rwa [Nat.zero_add])
  work := h.work
  latched := h.latched
  err := by simp
  errpos _ := rfl
  errpos_lt := s.params.cap_pos
  olen hne := absurd rfl hne
  olen_le := by
    rw [State.complete_olen, BitVec.toNat_ofNat]
    exact (Nat.mod_le _ _).trans hout
  result i hi := by
    rw [State.complete_olen, BitVec.toNat_ofNat] at hi
    have hlt : i < out.length := lt_of_lt_of_le hi (Nat.mod_le _ _)
    rw [State.complete_obuf, Memory.read?_writeSeq, dif_pos ⟨Nat.zero_le _, by omega⟩]
    rfl

theorem State.Inv.raise {s : State} (h : s.Inv) {e : ErrorCause} {pos : Nat}
    (hpos : e ≠ .invalidCharacter → pos = 0) (hlt : pos < s.params.cap) : (s.raise e pos).Inv where
  ibuf := h.ibuf
  obuf := h.obuf
  work := h.work
  latched := h.latched
  err := by simp
  errpos hne := by
    rw [State.raise_errpos, hpos fun he => hne (by rw [State.raise_err, he])]
    rfl
  errpos_lt := by
    rw [State.raise_errpos, BitVec.toNat_ofNat]
    exact (Nat.mod_le _ _).trans_lt hlt
  olen _ := rfl
  olen_le := Nat.zero_le _
  result i hi := absurd hi (Nat.not_lt_zero i)

/-- An ending inside its bounds keeps the invariant. -/
theorem State.Inv.settle {s : State} (h : s.Inv) {w : Work} (hw : s.work.Kept s.params w) {e : Ending}
    (he : e.Bounded s.params) : (s.settle w e).Inv := by
  cases e with
  | waits => exact h
  | fails e pos ms => exact ((h.setWork hw).logRequests ms).raise he.1 he.2
  | completes out ms => exact ((h.setWork hw).logRequests ms).complete he

theorem State.Inv.engineTurn {s t : State} (h : s.Inv) (ht : engineTurn s = .next t) : t.Inv := by
  by_cases hbusy : s.seq = .busy
  · obtain ⟨hbounded, w, hw, hnext⟩ := engineTurn_ends hbusy
    obtain rfl := Host.Outcome.next.inj (ht.symm.trans hnext)
    exact h.settle hw hbounded
  · obtain rfl := Host.Outcome.next.inj (ht.symm.trans (engineTurn_of_not_busy hbusy))
    exact h

theorem State.Inv.transacts {s t : State} (h : s.Inv) {x : Txn} (ht : s.Transacts x t) : t.Inv := by
  cases ht with
  | responds r => exact h.respond r
  | issues w hx hs => exact (h.issue w).respond .ok
  | storesLength v hs => exact (h.setIlen v).respond .ok
  | storesCell i b hi hs => exact (h.writeCell b hi).respond .ok

theorem Work.reset_fits (p : Params) : (Work.reset p).Fits p where
  wbuf := List.length_replicate
  z := le_rfl
  start := le_rfl
  wlen := Nat.zero_le _
  epos := Nat.zero_le _
  ebuf := Memory.wf_nil _
  acc := Nat.zero_le _

theorem State.resetOf_inv (p : Params) : (State.resetOf p).Inv where
  ibuf := Memory.wf_nil _
  obuf := Memory.wf_nil _
  work := Work.reset_fits p
  latched hl := absurd hl Bool.false_ne_true
  err := by simp [State.resetOf]
  errpos _ := rfl
  errpos_lt := p.cap_pos
  olen _ := rfl
  olen_le := Nat.zero_le _
  result i hi := absurd hi (Nat.not_lt_zero i)

theorem State.resetInput_inv (s : State) : s.resetInput.Inv :=
  (State.resetOf_inv s.params).outside 0 (s.powerOn + 1) s.hashAnswers s.hashRequests s.turns s.responses

theorem State.Inv.takeTurn {s t : State} (h : s.Inv) {turn : Turn} (ht : takeTurn turn s = .next t) : t.Inv := by
  cases turn with
  | host x =>
    obtain rfl := Host.Outcome.next.inj ht
    exact h.transacts (transact_transacts s x)
  | engine => exact h.engineTurn ht
  | reset =>
    obtain rfl := Host.Outcome.next.inj ht
    exact s.resetInput_inv
  | hashCore answers =>
    obtain rfl := Host.Outcome.next.inj ht
    exact h.setHashAnswers answers

end Sys2Proof.Machine

open Sys2Proof Sys2Proof.Machine

/-- Settles O54: at reset every buffer is empty, every index and register 0. -/
theorem resetMeetsTheInvariant : Obligations.ResetMeetsTheInvariant := State.resetOf_inv

/-- Settles O55: by the turn that the step takes. -/
theorem stepKeepsTheInvariant : Obligations.StepKeepsTheInvariant := by
  intro s t hinv hstep
  cases hts : s.turns with
  | nil =>
    rw [step_of_nil hts] at hstep
    exact hinv.engineTurn hstep
  | cons turn ts =>
    rw [step_of_cons hts] at hstep
    exact (hinv.setTurns ts).takeTurn hstep

end

section
/-! ## Hidden state cannot be observed (R41)

`State.Twins` is a simulation: whatever turn is taken in a state is taken in its twin, with the same responses. -/

namespace Sys2Proof.Machine

theorem State.Twins.inputCell {s t : State} (h : s.Twins t) (i : Nat) : s.inputCell i = t.inputCell i := by
  rw [State.inputCell, State.inputCell, h.ibuf, h.powerOn]

/-- Twins have the same operands (R34). -/
theorem State.Twins.sameOperands {s t : State} (h : s.Twins t) : s.SameOperands t :=
  ⟨h.params, h.ilen, h.hashAnswers, fun i _ => h.inputCell i⟩

theorem State.Twins.turnEnding_eq {s t : State} (h : s.Twins t) (hs : s.seq = .busy) :
    s.turnEnding = t.turnEnding := by
  rw [State.turnEnding, State.turnEnding, h.command hs]
  cases t.command? with
  | some i => exact h.sameOperands.ending_eq i
  | none => rfl

/-- A read of any target has the same response. -/
theorem State.Twins.readTarget_eq {s t : State} (h : s.Twins t) (x : Target) : s.readTarget x = t.readTarget x := by
  obtain ⟨hseq, herr, herrpos, holen, hcell⟩ := h.outcome
  cases x with
  | reg r =>
    cases r with
    | cmd => rfl
    | status => simp only [State.readTarget, State.readReg, State.statusWord, hseq]
    | err => simp only [State.readTarget, State.readReg, State.errWord, State.errCode, herr]
    | errpos => simp only [State.readTarget, State.readReg, herrpos]
    | ilen => simp only [State.readTarget, State.readReg, h.ilen]
    | olen => simp only [State.readTarget, State.readReg, holen]
  | ibuf i => simp only [State.readTarget, h.inputCell i]
  | obuf i => simp only [State.readTarget, hcell i]

/-! ### Every operation keeps twins -/

theorem State.Twins.setTurns {s t : State} (h : s.Twins t) (ts : List Turn) :
    State.Twins { s with turns := ts } { t with turns := ts } :=
  ⟨h.params, h.outcome, h.ilen, h.ibuf, h.command, h.powerOn, h.hashAnswers, h.hashRequests, rfl, h.responses⟩

theorem State.Twins.setHashAnswers {s t : State} (h : s.Twins t) (answers : Bool) :
    State.Twins { s with hashAnswers := answers } { t with hashAnswers := answers } :=
  ⟨h.params, h.outcome, h.ilen, h.ibuf, h.command, h.powerOn, rfl, h.hashRequests, h.turns, h.responses⟩

theorem State.Twins.respond {s t : State} (h : s.Twins t) (r : Response) : (s.respond r).Twins (t.respond r) :=
  ⟨h.params, h.outcome, h.ilen, h.ibuf, h.command, h.powerOn, h.hashAnswers, h.hashRequests, h.turns,
    congrArg (r :: ·) h.responses⟩

theorem State.Twins.writeIlen {s t : State} (h : s.Twins t) (v : Word) : (s.writeIlen v).Twins (t.writeIlen v) := by
  obtain ⟨hseq, -⟩ := id h.outcome
  rw [State.writeIlen, State.writeIlen]
  by_cases hs : s.seq = .busy
  · rw [if_pos hs, if_pos (hseq ▸ hs)]
    exact h
  · rw [if_neg hs, if_neg (hseq ▸ hs)]
    exact ⟨h.params, h.outcome, rfl, h.ibuf, h.command, h.powerOn, h.hashAnswers, h.hashRequests, h.turns, h.responses⟩

theorem State.Twins.writeInput {s t : State} (h : s.Twins t) (i : Nat) (b : Byte) :
    (s.writeInput i b).Twins (t.writeInput i b) := by
  obtain ⟨hseq, -⟩ := id h.outcome
  rw [State.writeInput, State.writeInput]
  by_cases hs : s.seq = .busy
  · rw [if_pos hs, if_pos (hseq ▸ hs)]
    exact h
  · rw [if_neg hs, if_neg (hseq ▸ hs)]
    exact ⟨h.params, h.outcome, h.ilen, congrArg (·.write i b) h.ibuf, h.command, h.powerOn, h.hashAnswers,
      h.hashRequests, h.turns, h.responses⟩

/-- Issue latches the word in both (R207), and closes the read gate of `OBUF`. -/
theorem State.Twins.writeCmd {s t : State} (h : s.Twins t) (w : Word) : (s.writeCmd w).Twins (t.writeCmd w) := by
  obtain ⟨hseq, -⟩ := id h.outcome
  rw [State.writeCmd, State.writeCmd]
  by_cases hs : s.seq = .busy
  · rw [if_pos hs, if_pos (hseq ▸ hs)]
    exact h
  · rw [if_neg hs, if_neg (hseq ▸ hs)]
    exact ⟨h.params,
      ⟨rfl, rfl, rfl, rfl, fun i => by
        rw [State.outputCell_of_not_done (by simp), State.outputCell_of_not_done (by simp)]⟩,
      h.ilen, h.ibuf, fun _ => rfl, h.powerOn, h.hashAnswers, h.hashRequests, h.turns, h.responses⟩

theorem State.Twins.writeTarget {s t : State} (h : s.Twins t) {n : Nat} (v : BitVec (8 * n)) (x : Target) :
    (s.writeTarget v x).Twins (t.writeTarget v x) := by
  cases x with
  | reg r =>
    cases r with
    | cmd => exact h.writeCmd _
    | ilen => exact h.writeIlen _
    | status => exact h
    | err => exact h
    | errpos => exact h
    | olen => exact h
  | ibuf i => exact h.writeInput i _
  | obuf i => exact h

/-- A transaction does the same to twins, and gets the same response. -/
theorem State.Twins.transact {s t : State} (h : s.Twins t) (x : Txn) : (s.transact x).Twins (t.transact x) := by
  cases x with
  | read addr n =>
    rw [transact_read, transact_read, ← h.params]
    cases Target.ofAccess s.params addr n with
    | none => exact h.respond .busError
    | some x =>
      simp only [h.readTarget_eq x]
      exact h.respond _
  | write addr n v =>
    rw [transact_write, transact_write, ← h.params]
    cases Target.ofAccess s.params addr n with
    | none => exact h.respond .busError
    | some x => exact (h.writeTarget v x).respond .ok

theorem State.Twins.resetInput {s t : State} (h : s.Twins t) : s.resetInput.Twins t.resetInput where
  params := h.params
  outcome := ⟨rfl, rfl, rfl, rfl, fun i => by
    rw [State.outputCell_of_not_done (by simp), State.outputCell_of_not_done (by simp)]⟩
  ilen := rfl
  ibuf := rfl
  command hbusy := by simp at hbusy
  powerOn := congrArg (· + 1) h.powerOn
  hashAnswers := h.hashAnswers
  hashRequests := h.hashRequests
  turns := h.turns
  responses := h.responses

/-- The same ending leaves twins, whatever hidden states it leaves. -/
theorem State.Twins.settle {s t : State} (h : s.Twins t) (w v : Work) (e : Ending) :
    (s.settle w e).Twins (t.settle v e) := by
  cases e with
  | waits => exact h
  | fails e pos ms =>
    exact ⟨h.params, State.settle_sameOutcome s t w v (by simp), h.ilen, h.ibuf, fun hbusy => (nomatch hbusy), h.powerOn,
      h.hashAnswers, congrArg (· ++ ms) h.hashRequests, h.turns, h.responses⟩
  | completes out ms =>
    exact ⟨h.params, State.settle_sameOutcome s t w v (by simp), h.ilen, h.ibuf, fun hbusy => (nomatch hbusy), h.powerOn,
      h.hashAnswers, congrArg (· ++ ms) h.hashRequests, h.turns, h.responses⟩

/-- Two outcomes that are next states and twins. -/
def TwinOutcomes (o o' : Host.Outcome State Fault Refusal) : Prop :=
  ∃ s t, o = .next s ∧ o' = .next t ∧ s.Twins t

theorem State.Twins.engineTurn {s t : State} (h : s.Twins t) : TwinOutcomes (engineTurn s) (engineTurn t) := by
  obtain ⟨hseq, -⟩ := id h.outcome
  by_cases hbusy : s.seq = .busy
  · obtain ⟨-, w, -, hw⟩ := engineTurn_ends hbusy
    obtain ⟨-, v, -, hv⟩ := engineTurn_ends (hseq ▸ hbusy)
    exact ⟨_, _, hw, hv, h.turnEnding_eq hbusy ▸ h.settle w v s.turnEnding⟩
  · exact ⟨s, t, engineTurn_of_not_busy hbusy, engineTurn_of_not_busy (hseq ▸ hbusy), h⟩

theorem State.Twins.takeTurn {s t : State} (h : s.Twins t) (turn : Turn) :
    TwinOutcomes (takeTurn turn s) (takeTurn turn t) := by
  cases turn with
  | host x => exact ⟨_, _, rfl, rfl, h.transact x⟩
  | engine => exact h.engineTurn
  | reset => exact ⟨_, _, rfl, rfl, h.resetInput⟩
  | hashCore answers => exact ⟨_, _, rfl, rfl, h.setHashAnswers answers⟩

theorem State.Twins.step {s t : State} (h : s.Twins t) : TwinOutcomes (step s) (step t) := by
  cases hts : s.turns with
  | nil =>
    rw [step_of_nil hts, step_of_nil (h.turns.symm.trans hts)]
    exact h.engineTurn
  | cons turn ts =>
    rw [step_of_cons hts, step_of_cons (h.turns.symm.trans hts)]
    exact (h.setTurns ts).takeTurn turn

end Sys2Proof.Machine

open Sys2Proof Sys2Proof.Machine

/-- Settles O56: a step of twins leaves twins, and a transaction of twins is logged with the same response. -/
theorem hiddenStateCannotBeObserved : Obligations.HiddenStateCannotBeObserved := by
  intro s t s' htwins hstep
  obtain ⟨u, t', hu, ht', htwins'⟩ := htwins.step
  obtain rfl := Host.Outcome.next.inj (hstep.symm.trans hu)
  exact ⟨t', ht', htwins', fun addr n => (htwins'.transact (.read addr n)).responses⟩

end

section
/-! ## What an access answers (R61 to R66, R71 to R74)

A step that takes a transaction, by what the transaction reaches: a cell or a register, or nothing. -/

namespace Sys2Proof.Machine

/-! ### The address map -/

/-- Any offset but the six of R61 holds no register. -/
theorem Reg.atOffset_eq_none {off : Nat}
    (h : ¬ (off = 0x00 ∨ off = 0x04 ∨ off = 0x08 ∨ off = 0x0C ∨ off = 0x10 ∨ off = 0x14)) :
    Reg.atOffset off = none := by
  simp only [not_or] at h
  obtain ⟨hcmd, hstatus, herr, herrpos, hilen, holen⟩ := h
  rw [Reg.atOffset, if_neg hcmd, if_neg hstatus, if_neg herr, if_neg herrpos, if_neg hilen, if_neg holen]

/-- An access reaches nothing where neither a register nor a cell has its offset and its size (R65). -/
theorem ofAccess_eq_none {p : Params} {off n : Nat}
    (hreg : ¬ (n = 4 ∧ (off = 0x00 ∨ off = 0x04 ∨ off = 0x08 ∨ off = 0x0C ∨ off = 0x10 ∨ off = 0x14)))
    (hcell : ¬ (n = 1 ∧ ((0x10000 ≤ off ∧ off < 0x10000 + p.cap) ∨ (0x20000 ≤ off ∧ off < 0x20000 + p.ocap)))) :
    Target.ofAccess p (p.base + off) n = none := by
  by_cases h4 : n = 4
  · subst h4
    rw [ofAccess_reg, Reg.atOffset_eq_none fun h => hreg ⟨rfl, h⟩, Option.map_none]
  · rw [Target.ofAccess, if_neg (by omega), if_neg h4, Nat.add_sub_cancel_left]
    split
    next h1 =>
      obtain ⟨hin, hout⟩ := not_or.1 fun h => hcell ⟨h1, h⟩
      rw [Target.cellAtOffset, if_neg hin, if_neg hout]
    next => rfl

/-- Every register and cell lies inside the 256 KiB of the block (R61). -/
theorem ofAccess_outside {p : Params} {addr : Nat} (n : Nat) (h : addr < p.base ∨ p.base + 0x40000 ≤ addr) :
    Target.ofAccess p addr n = none := by
  rcases h with hlow | hhigh
  · rw [Target.ofAccess, if_pos hlow]
  · obtain ⟨off, rfl⟩ := Nat.exists_eq_add_of_le (Nat.le_of_add_right_le hhigh)
    have hcap := p.cap_le
    exact ofAccess_eq_none (by omega) (by simp only [Params.ocap]; omega)

/-! ### One lemma per kind of access -/

/-- A scheduled read that reaches something responds with it and changes nothing (R66). -/
theorem step_of_read {s : State} {addr n : Nat} {x : Target} {ts : List Turn}
    (hx : Target.ofAccess s.params addr n = some x) (h : s.turns = .host (.read addr n) :: ts) :
    step s = .next { s with turns := ts, responses := s.readTarget x :: s.responses } := by
  rw [step_of_cons h, takeTurn, transact_read]
  simp only [hx]
  cases x with
  | reg r => cases r <;> rfl
  | ibuf i => rfl
  | obuf i => rfl

/-- A scheduled write that reaches something takes effect there and responds normally (R66). -/
theorem step_of_write {s : State} {addr n : Nat} {v : BitVec (8 * n)} {x : Target} {ts : List Turn}
    (hx : Target.ofAccess s.params addr n = some x) (h : s.turns = .host (.write addr n v) :: ts) :
    step s = .next ((State.writeTarget { s with turns := ts } v x).respond .ok) := by
  rw [step_of_cons h, takeTurn, transact_write]
  simp only [hx]

/-- A scheduled access that reaches nothing gets the bus error and changes nothing (R65). -/
theorem step_of_unmapped {s : State} {addr n : Nat} {ts : List Turn}
    (hx : Target.ofAccess s.params addr n = none) :
    (s.turns = .host (.read addr n) :: ts →
      step s = .next { s with turns := ts, responses := .busError :: s.responses }) ∧
    ∀ v, s.turns = .host (.write addr n v) :: ts →
      step s = .next { s with turns := ts, responses := .busError :: s.responses } := by
  refine ⟨fun h => ?_, fun v h => ?_⟩
  · rw [step_of_cons h, takeTurn, transact_read]
    simp only [hx]
    rfl
  · rw [step_of_cons h, takeTurn, transact_write]
    simp only [hx]
    rfl

/-- While BUSY no write has an effect (R73). -/
theorem State.writeTarget_of_busy {s : State} (hs : s.seq = .busy) {n : Nat} (v : BitVec (8 * n)) (x : Target) :
    s.writeTarget v x = s := by
  cases x with
  | reg r => cases r <;> simp only [State.writeTarget, State.writeCmd, State.writeIlen, if_pos hs]
  | ibuf i => simp only [State.writeTarget, State.writeInput, if_pos hs]
  | obuf i => rfl

/-- While BUSY a scheduled write that reaches something responds normally and changes nothing (R73). -/
theorem step_of_write_busy {s : State} {addr n : Nat} {v : BitVec (8 * n)} {x : Target} {ts : List Turn}
    (hs : s.seq = .busy) (hx : Target.ofAccess s.params addr n = some x)
    (h : s.turns = .host (.write addr n v) :: ts) :
    step s = .next { s with turns := ts, responses := .ok :: s.responses } := by
  rw [step_of_write hx h, State.writeTarget_of_busy (s := { s with turns := ts }) hs]
  rfl

/-- Outside BUSY a scheduled 1-byte write at a cell of `IBUF` stores the byte (R71). -/
theorem step_of_cellWrite {s : State} {i : Nat} {b : Byte} {ts : List Turn} (hs : s.seq ≠ .busy)
    (hi : i < s.params.cap) (h : s.turns = .host (.write (s.params.base + 0x10000 + i) 1 b) :: ts) :
    step s = .next { s with ibuf := s.ibuf.write i b, turns := ts, responses := .ok :: s.responses } := by
  rw [step_of_write (ofAccess_ibuf s.params hi) h, writeTarget_ibuf]
  simp only [State.writeInput, if_neg hs]
  rfl

/-! ### What the cells and registers read as -/

/-- What the cells of `IBUF` read as after one is written (R71). -/
theorem State.inputCell_write (s : State) (i j : Nat) (b : Byte) :
    State.inputCell { s with ibuf := s.ibuf.write i b } j = if j = i then b else s.inputCell j := by
  simp only [State.inputCell, Memory.read?_write]
  by_cases hj : j = i
  · simp only [if_pos hj]
  · simp only [if_neg hj]

/-- Where the result is out, a cell of `OBUF` reads as its element (R32). -/
theorem State.DoneWith.outputCell {s : State} {out : List Byte} (h : s.DoneWith out) {i : Nat}
    (hi : i < out.length) : s.outputCell i = out[i] := by
  obtain ⟨-, -, -, -, rfl, -⟩ := h
  simp only [State.output, List.getElem_map, List.getElem_range]

/-- While BUSY the registers of the outcome are clear, as issue left them (R74, R207). -/
theorem State.Inv.readReg_of_busy {s : State} (h : s.Inv) (hs : s.seq = .busy) :
    s.readReg .status = 1 ∧ s.readReg .err = 0 ∧ s.readReg .errpos = 0 ∧ s.readReg .olen = 0 := by
  have herr : s.err = none := by
    by_contra hne
    exact absurd (hs.symm.trans (h.err.1 hne)) (by decide)
  refine ⟨?_, ?_, h.errpos (by simp [herr]), h.olen (by simp [hs])⟩
  · rw [State.readReg, State.statusWord, hs]
    rfl
  · rw [State.readReg, State.errWord, State.errCode, herr]
    rfl

end Sys2Proof.Machine

open Sys2Proof Sys2Proof.Machine

/-- Settles O18: such an access reaches no register and no cell. -/
theorem otherAccessesGetABusError : Obligations.OtherAccessesGetABusError :=
  fun _ _ _ _ _ hreg hcell => step_of_unmapped (ofAccess_eq_none hreg hcell)

/-- Settles O20: the read and the write reach the cell; outside BUSY the write stores the byte, which the next read finds. -/
theorem inputCellReadsAsWritten : Obligations.InputCellReadsAsWritten := by
  refine fun s i ts hi => ⟨step_of_read (ofAccess_ibuf s.params hi), fun b hs h => ?_⟩
  have hcells := fun j => State.inputCell_write { s with turns := ts, responses := .ok :: s.responses } i j b
  have hself := (hcells i).trans (if_pos rfl)
  refine ⟨_, step_of_cellWrite hs hi h, hself, fun j hj => (hcells j).trans (if_neg hj), rfl, fun us hus => ?_⟩
  rw [step_of_read (x := .ibuf i) ?_ hus, State.readTarget, hself]
  exact ofAccess_ibuf s.params hi

/-- Settles O22: the read reaches the gated cell, and the write a cell that takes none. -/
theorem outputCellsAreGated : Obligations.OutputCellsAreGated := by
  intro s i ts hi
  have hx : Target.ofAccess s.params (s.params.base + 0x20000 + i) 1 = some (.obuf i) := ofAccess_obuf s.params hi
  refine ⟨fun h => ⟨fun hgate => ?_, fun out hout hlt => ?_⟩, fun b h => step_of_write hx h⟩
  · rw [step_of_read hx h, State.readTarget, State.outputCell, if_neg hgate]
  · rw [step_of_read hx h, State.readTarget, hout.outputCell hlt]

/-- Settles O24: each offset is that of a register or a cell, whose value while BUSY the invariant gives. -/
theorem busyReadsAreDefined : Obligations.BusyReadsAreDefined := by
  intro s ts hinv hs
  obtain ⟨hstatus, herr, herrpos, holen⟩ := hinv.readReg_of_busy hs
  refine ⟨fun off h => ⟨?_, ?_, ?_⟩, fun i => ⟨fun hi h => ?_, fun hi h => ?_⟩⟩
  · rintro rfl
    rw [step_of_regRead (r := .status) rfl h, hstatus]
  · rintro (rfl | rfl | rfl | rfl)
    · exact step_of_regRead (r := .cmd) rfl h
    · rw [step_of_regRead (r := .err) rfl h, herr]
    · rw [step_of_regRead (r := .errpos) rfl h, herrpos]
    · rw [step_of_regRead (r := .olen) rfl h, holen]
  · rintro rfl
    exact step_of_regRead (r := .ilen) rfl h
  · rw [step_of_read (ofAccess_obuf s.params hi) h, State.readTarget,
      State.outputCell_of_not_done (by simp [hs])]
  · exact step_of_read (ofAccess_ibuf s.params hi) h

/-- Settles O17: a read answers the state with a response, whatever it reaches. -/
theorem readsHaveNoSideEffects : Obligations.ReadsHaveNoSideEffects := by
  intro s addr n ts h
  rw [step_of_cons h, takeTurn, transact_read]
  exact ⟨_, rfl⟩

/-- Settles O19: nothing outside the block is reached. -/
theorem accessesOutsideTheBlockGetABusError : Obligations.AccessesOutsideTheBlockGetABusError :=
  fun _ _ n _ hout => step_of_unmapped (ofAccess_outside n hout)

/-- Settles O23: the three writes reach their register or cell, and while BUSY no write has an effect. -/
theorem busyIgnoresWrites : Obligations.BusyIgnoresWrites := by
  refine fun s ts hs => ⟨fun w h => ?_, fun i b hi h => step_of_write_busy hs (ofAccess_ibuf s.params hi) h⟩
  rcases h with h | h
  · exact step_of_write_busy hs (ofAccess_cmd s.params) h
  · exact step_of_write_busy hs (ofAccess_reg s.params 0x10) h

end

section
/-! ## The engine and the hash core (R81, R82, R242) -/

namespace Sys2Proof.Machine

/-! ### Every turn answers a next state -/

theorem engineTurn_next (s : State) : ∃ t, engineTurn s = .next t := by
  by_cases hs : s.seq = .busy
  · obtain ⟨-, w, -, h⟩ := engineTurn_ends hs
    exact ⟨_, h⟩
  · exact ⟨s, engineTurn_of_not_busy hs⟩

theorem takeTurn_next (turn : Turn) (s : State) : ∃ t, takeTurn turn s = .next t := by
  cases turn with
  | host x => exact ⟨_, rfl⟩
  | engine => exact engineTurn_next s
  | reset => exact ⟨_, rfl⟩
  | hashCore answers => exact ⟨_, rfl⟩

/-! ### Waiting for the hash core -/

/-- A state that a step leaves as it is stays so for any number of steps. -/
theorem run_of_step_self {s : State} (h : step s = .next s) (n : Nat) : core.run n s = .next s := by
  induction n with
  | zero => rfl
  | succ n ih =>
    simp only [Host.Core.run, show core.step s = .next s from h]
    exact ih

/-- With nothing scheduled, a command that waits for the hash core stays BUSY for ever (R82; log 7). -/
theorem run_of_waits {s : State} {i : Instr} (hs : s.seq = .busy) (hi : s.command? = some i)
    (hw : s.ending i = .waits) (hts : s.turns = []) (n : Nat) : core.run n s = .next s := by
  refine run_of_step_self ?_ n
  obtain ⟨-, w, -, h⟩ := exec_ends i s
  rw [hw] at h
  rw [step_of_nil hts, engineTurn_of_command hs hi]
  exact h

/-- ENCC that has passed its checks waits for a silent hash core. -/
theorem State.ending_encc_waits {s : State} {v : Nat} (hv : v ≤ 255) (hle : s.ilen.toNat ≤ s.params.cap)
    (ha : s.hashAnswers = false) : s.ending (.encc v) = .waits := by
  rw [State.ending, State.operand?_of_fits hle, Ending.ofCommand, if_neg (by omega), ha]
  rfl

/-- DECC that has passed TooShort waits for a silent hash core. -/
theorem State.ending_decc_waits {s : State} {b : List Byte} (hle : s.ilen.toNat ≤ s.params.cap)
    (hd : dec s.input = .ok b) (h4 : 4 ≤ b.length) (ha : s.hashAnswers = false) : s.ending .decc = .waits := by
  simp only [State.ending, State.operand?_of_fits hle, Ending.ofCommand, hd, ha, Ending.ofDecc]
  rw [if_neg (by omega)]
  rfl

/-! ### The requests of each command -/

/-- ENC makes no request, however it ends (R81). -/
theorem execEnc_hashRequests {s t : State} (h : execEnc s = .next t) : t.hashRequests = s.hashRequests := by
  rcases execEnc_eq s with ⟨-, ht⟩ | ⟨-, -, w, ht, -⟩
  all_goals
    obtain rfl := Host.Outcome.next.inj (h.symm.trans ht)
    rfl

/-- DEC makes no request, however it ends (R81). -/
theorem execDec_hashRequests {s t : State} (h : execDec s = .next t) : t.hashRequests = s.hashRequests := by
  rcases execDec_eq s with ⟨-, ht⟩ | ⟨-, w, -, ⟨p, -, -, ht⟩ | ⟨b, -, -, ht⟩⟩
  all_goals
    obtain rfl := Host.Outcome.next.inj (h.symm.trans ht)
    rfl

/-- ENCC makes the requests of CSUM on the versioned payload when it completes, and none otherwise (R156). -/
theorem execEncc_hashRequests {s t : State} {v : Nat} (hs : s.seq = .busy) (h : execEncc v s = .next t) :
    t.hashRequests = s.hashRequests ++
      if t.seq = .done then csumRequests Config.hash (BitVec.ofNat 8 v :: s.input) else [] := by
  rcases execEnccWith_eq Config.hash v s with
    ⟨-, ht⟩ | ⟨-, -, ht⟩ | ⟨-, -, -, ht⟩ | ⟨-, -, -, -, w, -, ht⟩
  all_goals obtain rfl := Host.Outcome.next.inj (h.symm.trans ht)
  · simp
  · simp
  · simp [hs]
  · simp [csumRequests]

/-- DECC makes the requests of CSUM on the data when it completes or finds that the checksum differs; where it fails
earlier, or waits, it makes none (R161). -/
theorem execDecc_hashRequests {s t : State} (h : execDecc s = .next t) :
    (t = s ∨ t.seq ≠ .done ∧ t.err ≠ some .checksumMismatch) ∧ t.hashRequests = s.hashRequests ∨
    (t.seq = .done ∨ t.err = some .checksumMismatch) ∧ ∃ b, dec s.input = .ok b ∧
      t.hashRequests = s.hashRequests ++ csumRequests Config.hash (b.take (b.length - 4)) := by
  rcases execDeccWith_eq Config.hash s with ⟨-, ht⟩ | ⟨-, w, -, ⟨p, -, -, ht⟩ | ⟨b, hd, -, hends⟩⟩
  · obtain rfl := Host.Outcome.next.inj (h.symm.trans ht)
    exact .inl ⟨.inr (by simp), rfl⟩
  · obtain rfl := Host.Outcome.next.inj (h.symm.trans ht)
    exact .inl ⟨.inr (by simp), rfl⟩
  · rcases hends with ⟨-, ht⟩ | ⟨-, -, ht⟩ | ⟨-, -, -, ht⟩ | ⟨-, -, -, ht⟩
    all_goals obtain rfl := Host.Outcome.next.inj (h.symm.trans ht)
    · exact .inl ⟨.inr (by simp), rfl⟩
    · exact .inl ⟨.inl rfl, rfl⟩
    · exact .inr ⟨.inl rfl, b, hd, rfl⟩
    · exact .inr ⟨.inr rfl, b, hd, rfl⟩

end Sys2Proof.Machine

open Sys2Proof Sys2Proof.Machine

/-- Settles O9: by the turn that the step takes. -/
theorem everyStepAnswersANextState : Obligations.EveryStepAnswersANextState := by
  intro s
  cases hts : s.turns with
  | nil =>
    rw [step_of_nil hts]
    exact engineTurn_next s
  | cons turn ts =>
    rw [step_of_cons hts]
    exact takeTurn_next turn _

/-- Settles O41: ENCC that waits is a state that no step changes. -/
theorem silentHashCoreLeavesEnccBusy : Obligations.SilentHashCoreLeavesEnccBusy :=
  fun _ _ n hs hi hv hle ha hts => run_of_waits hs hi (State.ending_encc_waits hv hle ha) hts n

/-- Settles O57: DECC that waits is a state that no step changes. -/
theorem silentHashCoreLeavesDeccBusy : Obligations.SilentHashCoreLeavesDeccBusy :=
  fun _ _ n hs hi hle hd h4 ha hts => run_of_waits hs hi (State.ending_decc_waits hle hd h4 ha) hts n

/-- Settles O42: by the requests that each command makes. -/
theorem hashRequestsOfEachCommand : Obligations.HashRequestsOfEachCommand := by
  refine fun s t hs => ⟨execEnc_hashRequests, execDec_hashRequests, fun v h hdone => ?_, fun v h hdone => ?_,
    fun b h hd hend herr => ?_, fun h hdone hne => ?_⟩
  · rw [execEncc_hashRequests hs h, if_pos hdone, csumRequests]
  · rw [execEncc_hashRequests hs h, if_neg hdone, List.append_nil]
  · rcases execDecc_hashRequests h with ⟨rfl | ⟨hdone, hne⟩, -⟩ | ⟨-, b', hd', hreq⟩
    · simp [hs, herr] at hend
    · exact absurd hend (not_or.2 ⟨hdone, hne⟩)
    · obtain rfl : b' = b := Except.ok.inj (hd'.symm.trans hd)
      exact hreq
  · rcases execDecc_hashRequests h with ⟨-, hreq⟩ | ⟨hend, -⟩
    · exact hreq
    · exact absurd hend (not_or.2 ⟨hdone, hne⟩)

end

section
/-! ## Decoding and encoding (R91 to R99)

`encode` and `decode` are inverse to each other: a word decodes to an instruction exactly when the instruction is
well-formed and the word is its own. -/

namespace Sys2Proof

/-! ### The fields of a word -/

/-- `w[7:0]` as a number (R91). -/
theorem opField_toNat (w : Word) : (opField w).toNat = w.toNat % 2 ^ 8 := by
  rw [opField, BitVec.extractLsb'_toNat, Nat.shiftRight_zero]

/-- `w[23:8]` as a number (R91). -/
theorem verField_toNat (w : Word) : (verField w).toNat = w.toNat / 2 ^ 8 % 2 ^ 16 := by
  rw [verField, BitVec.extractLsb'_toNat, Nat.shiftRight_eq_div_pow]

/-- `w[31:24]` as a number: nothing lies above it (R91). -/
theorem rsvField_toNat (w : Word) : (rsvField w).toNat = w.toNat / 2 ^ 24 := by
  rw [rsvField, BitVec.extractLsb'_toNat, Nat.shiftRight_eq_div_pow]
  exact Nat.mod_eq_of_lt (Nat.div_lt_of_lt_mul w.isLt)

/-- A word is made of its three fields (R91). -/
theorem assemble_fields (w : Word) : assemble (rsvField w) (verField w) (opField w) = w := by
  calc assemble (rsvField w) (verField w) (opField w)
      = rsvField w ++ w.extractLsb' 0 24 :=
        congrArg (rsvField w ++ ·) (BitVec.extractLsb'_append_extractLsb'_eq_extractLsb' (start₁ := 0) (len₁ := 8) rfl)
    _ = w.extractLsb' 0 32 := BitVec.extractLsb'_append_extractLsb'_eq_extractLsb' (start₁ := 0) (len₁ := 24) rfl
    _ = w := BitVec.extractLsb'_eq_self

/-! ### Decoding by the fields -/

/-- A command without the version operand has `VER = 0` (R99). -/
theorem decodePlain_eq_ok {i j : Instr} {ver : BitVec 16} : decodePlain i ver = .ok j ↔ ver = 0 ∧ i = j := by
  rw [decodePlain]
  split
  next h => rw [Except.ok.injEq, and_iff_right h]
  next h => exact ⟨nofun, fun ⟨hver, _⟩ => absurd hver h⟩

/-- What a command without the version operand decodes to, or none (R99). -/
theorem decodePlain_toOption (i : Instr) (ver : BitVec 16) :
    (decodePlain i ver).toOption = if ver = 0 then some i else none := by
  rw [decodePlain, apply_ite Except.toOption]
  rfl

/-- The procedure of R99 on a word given by its fields, with `RSV = 0`. -/
theorem decode_assemble (ver : BitVec 16) (op : BitVec 8) : decode (assemble 0 ver op) =
    if op = 0x01 then decodePlain .enc ver
    else if op = 0x02 then decodePlain .dec ver
    else if op = 0x03 then .ok (.encc ver.toNat)
    else if op = 0x04 then decodePlain .decc ver
    else .error .reservedOpcode := by
  obtain ⟨hrsv, hver, hop⟩ := Laws.EncodeFields.fields_assemble 0 ver op
  rw [decode, hrsv, hver, hop, if_neg (not_not.2 rfl)]

/-- The word of a well-formed instruction decodes to it (R93 to R97). -/
theorem decode_encode {i : Instr} (h : i.wellFormed = true) : decode (encode i) = .ok i := by
  cases i with
  | enc => exact decode_assemble 0 0x01
  | dec => exact decode_assemble 0 0x02
  | encc ver =>
    have hver : ver < 2 ^ 16 := Nat.lt_succ_of_le (of_decide_eq_true h)
    calc decode (assemble 0 (BitVec.ofNat 16 ver) 0x03)
        = .ok (.encc (BitVec.ofNat 16 ver).toNat) := decode_assemble _ _
      _ = .ok (.encc ver) := by rw [BitVec.toNat_ofNat, Nat.mod_eq_of_lt hver]
  | decc => exact decode_assemble 0 0x04

/-- A word that decodes has `RSV = 0` (R98). -/
theorem rsvField_of_decode {w : Word} {i : Instr} (h : decode w = .ok i) : rsvField w = 0 :=
  Machine.rsvField_of_isLegal (by rw [isLegal, h])

/-- What a word with `RSV = 0` decodes to is well-formed and has this word (R92, R98). -/
theorem encode_of_decode_assemble {ver : BitVec 16} {op : BitVec 8} {i : Instr}
    (h : decode (assemble 0 ver op) = .ok i) : encode i = assemble 0 ver op ∧ i.wellFormed = true := by
  rw [decode_assemble] at h
  split_ifs at h with henc hdec hencc hdecc
  · obtain ⟨rfl, rfl⟩ := decodePlain_eq_ok.1 h
    exact ⟨by rw [encode, henc], rfl⟩
  · obtain ⟨rfl, rfl⟩ := decodePlain_eq_ok.1 h
    exact ⟨by rw [encode, hdec], rfl⟩
  · obtain rfl := Except.ok.inj h
    exact ⟨by rw [encode, hencc, BitVec.ofNat_toNat, BitVec.setWidth_eq], decide_eq_true (Nat.le_of_lt_succ ver.isLt)⟩
  · obtain ⟨rfl, rfl⟩ := decodePlain_eq_ok.1 h
    exact ⟨by rw [encode, hdecc], rfl⟩

/-- Decoding and encoding are inverse on the legal words and the well-formed instructions (R91 to R98). -/
theorem decode_eq_ok_iff {w : Word} {i : Instr} : decode w = .ok i ↔ encode i = w ∧ i.wellFormed = true := by
  constructor
  · intro h
    obtain ⟨ver, op, rfl⟩ : ∃ ver op, w = assemble 0 ver op :=
      ⟨verField w, opField w, by rw [← rsvField_of_decode h, assemble_fields]⟩
    exact encode_of_decode_assemble h
  · rintro ⟨rfl, hwf⟩
    exact decode_encode hwf

end Sys2Proof

namespace Sys2Proof.Machine

/-! ### Illegal words -/

/-- Outside BUSY a scheduled write to `CMD` issues the word (R207). -/
theorem step_of_cmdWrite {s : State} {w : Word} {ts : List Turn} (hs : s.seq ≠ .busy)
    (h : s.turns = .host (.write s.params.base 4 w) :: ts) :
    step s = .next ((State.issue { s with turns := ts } w).respond .ok) := by
  rw [step_of_write (ofAccess_cmd s.params) h, writeTarget_word]
  simp only [State.writeCmd, if_neg hs]

/-- An illegal word is latched as no command (R98, R207). -/
theorem State.command?_issue_of_error {s : State} {w : Word} {r : Illegal} (h : decode w = .error r) :
    (s.issue w).command? = none := by
  have hlegal : isLegal w = false := by rw [isLegal, h]
  rw [State.command?, State.issue_work, hlegal]
  rfl

/-- Error completion shows exactly the error; every position of `IBUF` fits `ERRPOS` (R32, R210). -/
theorem State.raise_failedWith (s : State) (e : ErrorCause) {pos : Nat} (h : pos < 2 ^ 32) :
    (s.raise e pos).FailedWith e pos :=
  ⟨rfl, rfl, by rw [State.raise_errpos, BitVec.toNat_ofNat, Nat.mod_eq_of_lt h], rfl,
    State.outputCell_of_not_done (by simp)⟩

end Sys2Proof.Machine

open Sys2Proof Sys2Proof.Machine

/-- Settles O3: the fields of the word are those that the instruction was assembled from. -/
theorem decodeInvertsEncode : Obligations.DecodeInvertsEncode := fun _ => decode_encode

/-- Settles O4: a word that decodes is assembled from the fields that the instruction is read from. -/
theorem encodeInvertsDecode : Obligations.EncodeInvertsDecode := fun _ _ => decode_eq_ok_iff.1

/-- Settles O1: each of the three commands has one word, and no other word decodes to it. -/
theorem plainCommandsAreExactlyOneWord : Obligations.PlainCommandsAreExactlyOneWord := by
  have hone : ∀ {i : Instr} {w : Word}, i.wellFormed = true → (decode w = .ok i ↔ w = encode i) :=
    fun hwf => by rw [decode_eq_ok_iff, and_iff_left hwf, eq_comm]
  exact fun w => ⟨hone rfl, hone rfl, hone rfl⟩

/-- Settles O2: the same procedure, each test on a field read as one on its number. -/
theorem decodeFollowsTheProcedure : Obligations.DecodeFollowsTheProcedure := by
  intro w
  have hop : ∀ c, opField w = c ↔ w.toNat % 2 ^ 8 = c.toNat := fun c => by rw [← opField_toNat, BitVec.toNat_inj]
  have hver : verField w = 0 ↔ w.toNat / 2 ^ 8 % 2 ^ 16 = 0 := by rw [← verField_toNat]; exact BitVec.toNat_inj.symm
  have hrsv : rsvField w = 0 ↔ w.toNat / 2 ^ 24 = 0 := by rw [← rsvField_toNat]; exact BitVec.toNat_inj.symm
  simp only [decode, apply_ite Except.toOption, decodePlain_toOption, ne_eq, hrsv, hop, hver, verField_toNat]
  rfl

/-- Settles O5: each of the eight words is decoded. -/
theorem writtenOutWordsDecode : Obligations.WrittenOutWordsDecode := by
  unfold Obligations.WrittenOutWordsDecode
  decide

/-- Settles O13: the word is issued as no command, which the engine ends with IllegalCommand. -/
theorem illegalWordFailsWithIllegalCommand : Obligations.IllegalWordFailsWithIllegalCommand := by
  intro s w r ts hs hr h
  have hcommand := State.command?_issue_of_error (s := { s with turns := ts }) hr
  exact ⟨_, _, step_of_cmdWrite hs h, rfl, (step_of_engine rfl).trans (engineTurn_of_illegal rfl hcommand),
    State.raise_failedWith _ _ (by decide), rfl, rfl, rfl, rfl, rfl, rfl, rfl⟩

end

section
/-! ## The codec as a change of radix (R111, R131)

`enc` and `dec` are the same change of radix, `recode`, between lists of numbers, with `ALPHA` on the side of the
characters. What the spec says of them both (R118 to R121, R139 to R141) is said of `recode` first. -/

namespace Sys2Proof.Machine

/-! ### Changing the radix of a list of digits -/

/-- The digits `s` in base `B` written in base `D`: as many leading zeros as `s` has, then the canonical form of its
value. -/
def recode (B D : Nat) (s : List Nat) : List Nat := List.replicate (lz s) 0 ++ canon D (val B s)

section

variable {B D : Nat} {s : List Nat}

theorem recode_lt (hD : 1 < D) : ∀ d ∈ recode B D s, d < D := by
  intro d h
  rcases List.mem_append.1 h with hz | hc
  · have := List.eq_of_mem_replicate hz
    omega
  · exact canon_lt hD hc

theorem lz_recode (hD : 1 < D) : lz (recode B D s) = lz s := lz_replicate_append _ (canon_head hD _)

theorem val_recode (hD : 1 < D) : val D (recode B D s) = val B s := by
  rw [recode, val_replicate_zero_append, val_canon hD]

/-- In its own base a list of digits is its leading zeros and the canonical form of its value. -/
theorem recode_self (hB : 1 < B) (hs : ∀ d ∈ s, d < B) : recode B B s = s := by
  rw [recode, canon_val hB s hs, ← eq_replicate_lz_append]

/-- The change back restores the digits. -/
theorem recode_recode (hB : 1 < B) (hD : 1 < D) (hs : ∀ d ∈ s, d < B) : recode D B (recode B D s) = s := by
  calc recode D B (recode B D s) = recode B B s := by rw [recode, lz_recode hD, val_recode hD, recode]
    _ = s := recode_self hB hs

/-- The digits after the leading zeros bound the value. -/
theorem val_lt_pow_sub_lz (hB : 1 < B) (hs : ∀ d ∈ s, d < B) : val B s < B ^ (s.length - lz s) := by
  have hlen : (s.dropWhile (· = 0)).length = s.length - lz s := by
    have hsplit := congrArg List.length (eq_replicate_lz_append s)
    rw [List.length_append, List.length_replicate] at hsplit
    omega
  rw [← val_dropWhile, ← hlen]
  exact val_lt _ hB fun d hd => hs d ((List.dropWhile_sublist _).subset hd)

/-- Where `k` digits of base `D` hold one of base `B`, the change makes a list at most `k` times as long. -/
theorem recode_length_le {k : Nat} (hB : 1 < B) (hD : 1 < D) (hk : B ≤ D ^ k) (hs : ∀ d ∈ s, d < B) :
    (recode B D s).length ≤ k * s.length := by
  have hk0 : 1 ≤ k := Nat.one_le_iff_ne_zero.2 fun h0 => by simp [h0] at hk; omega
  have hlz : lz s ≤ s.length := (List.takeWhile_sublist _).length_le
  have hcanon : (canon D (val B s)).length ≤ k * (s.length - lz s) := by
    rw [canon_eq hD, List.length_reverse, Nat.digits_length_le_iff hD]
    calc val B s < B ^ (s.length - lz s) := val_lt_pow_sub_lz hB hs
      _ ≤ (D ^ k) ^ (s.length - lz s) := Nat.pow_le_pow_left hk _
      _ = D ^ (k * (s.length - lz s)) := (pow_mul ..).symm
  calc (recode B D s).length = lz s + (canon D (val B s)).length := by simp [recode]
    _ ≤ k * lz s + k * (s.length - lz s) := Nat.add_le_add (Nat.le_mul_of_pos_left _ hk0) hcanon
    _ = k * s.length := by rw [← Nat.mul_add, Nat.add_sub_cancel' hlz]

end

/-! ### Bytes, digits and characters -/

/-- A map under which `q` becomes `p` keeps the length of the leading run. -/
theorem length_takeWhile_map {α β : Type} (f : α → β) {p : α → Bool} {q : β → Bool} {l : List α}
    (h : ∀ a ∈ l, q (f a) = p a) : ((l.map f).takeWhile q).length = (l.takeWhile p).length := by
  induction l with
  | nil => rfl
  | cons a l ih =>
    obtain ⟨ha, hl⟩ := List.forall_mem_cons.1 h
    rw [List.map_cons, List.takeWhile_cons, List.takeWhile_cons, ha]
    cases p a with
    | false => rfl
    | true => exact congrArg (· + 1) (ih hl)

/-- Leading zero bytes are leading zero numbers. -/
theorem lz_nats (x : List Byte) : lz (nats x) = (x.takeWhile (· = 0)).length :=
  length_takeWhile_map _ fun _ _ => decide_eq_decide.2 (BitVec.toNat_inj (y := 0))

/-- Bytes survive the way through numbers. -/
theorem map_ofNat_nats (x : List Byte) : (nats x).map (BitVec.ofNat 8) = x :=
  nats_injective (nats_map_ofNat fun _ => nats_lt)

/-- Leading zero digits are leading zero characters. -/
theorem leadingZeroChars_map_alpha {ds : List Nat} (h : ∀ d ∈ ds, d < 58) :
    ((ds.map alpha).takeWhile (· = zeroChar)).length = lz ds :=
  length_takeWhile_map _ fun d hd => decide_eq_decide.2 (alpha_eq_zeroChar (h d hd))

/-- The characters of digits are valid and have these digits (R31). -/
theorem digitsOf_map_alpha {ds : List Nat} (h : ∀ d ∈ ds, d < 58) :
    firstInvalid (ds.map alpha) = none ∧ digitsOf (ds.map alpha) = ds := by
  constructor
  · rw [firstInvalid, List.findIdx?_eq_none_iff]
    intro c hc
    obtain ⟨d, hd, rfl⟩ := List.mem_map.1 hc
    rw [ridx_alpha (h d hd)]
    rfl
  · rw [digitsOf, List.map_map, List.map_congr_left (g := id) fun d hd => ?_, List.map_id]
    simp [ridx_alpha (h d hd)]

/-! ### `enc` and `dec` -/

/-- `enc` is the change from bytes to digits, through `ALPHA` (R111). -/
theorem enc_eq_map_alpha (x : List Byte) : enc x = (recode 256 58 (nats x)).map alpha := by
  rw [enc, recode, List.map_append, List.map_replicate, alpha_zero]

/-- `dec` of a valid string is the change from its digits to bytes (R131). -/
theorem dec_of_valid {s : List Byte} (h : firstInvalid s = none) :
    dec s = .ok ((recode 58 256 (digitsOf s)).map (BitVec.ofNat 8)) := by
  simp [dec, h, recode]

/-- Only a valid string decodes (R131). -/
theorem firstInvalid_of_dec {s b : List Byte} (h : dec s = .ok b) : firstInvalid s = none := by
  cases hf : firstInvalid s with
  | none => rfl
  | some p => simp [dec, hf] at h

/-- `dec(enc(x)) = x` (R141). -/
theorem dec_enc (x : List Byte) : dec (enc x) = .ok x := by
  obtain ⟨hvalid, hdigits⟩ := digitsOf_map_alpha (recode_lt (B := 256) (D := 58) (s := nats x) (by decide))
  rw [enc_eq_map_alpha, dec_of_valid hvalid, hdigits, recode_recode (by decide) (by decide) fun _ => nats_lt,
    map_ofNat_nats]

/-- `enc` at most doubles the length (R119). -/
theorem enc_length_le (x : List Byte) : (enc x).length ≤ 2 * x.length := by
  calc (enc x).length = (recode 256 58 (nats x)).length := by rw [enc_eq_map_alpha, List.length_map]
    _ ≤ 2 * (nats x).length := recode_length_le (by decide) (by decide) (by decide) fun _ => nats_lt
    _ = 2 * x.length := by rw [nats_length]

/-- `dec` makes no more bytes than characters (R140). -/
theorem dec_length_le {s b : List Byte} (h : dec s = .ok b) : b.length ≤ s.length := by
  obtain rfl := Except.ok.inj ((dec_of_valid (firstInvalid_of_dec h)).symm.trans h)
  calc ((recode 58 256 (digitsOf s)).map (BitVec.ofNat 8)).length = (recode 58 256 (digitsOf s)).length :=
        List.length_map ..
    _ ≤ 1 * (digitsOf s).length := recode_length_le (by decide) (by decide) (by decide) fun _ => digitsOf_lt
    _ = s.length := by rw [one_mul, digitsOf_length]

/-- `enc` makes no fewer characters than bytes. -/
theorem length_le_enc (x : List Byte) : x.length ≤ (enc x).length := dec_length_le (dec_enc x)

/-- The checked payload has the version byte before it and four bytes behind it (R154). -/
theorem checkedPayload_length (H : HashFn) (v : Byte) (p : List Byte) :
    (checkedPayload H v p).length = p.length + 5 := by
  simp [checkedPayload]

end Sys2Proof.Machine

open Sys2Proof Sys2Proof.Machine

/-- Settles O45: of `enc` as a change of radix, which keeps the leading zeros, and which `dec` undoes. -/
theorem encodingPreservesLeadingZeros : Obligations.EncodingPreservesLeadingZeros := by
  refine ⟨fun x => ?_, fun x c hc => ?_, fun x y h => ?_⟩
  · rw [enc_eq_map_alpha, leadingZeroChars_map_alpha (recode_lt (by decide)), lz_recode (by decide), lz_nats]
  · rw [enc_eq_map_alpha] at hc
    obtain ⟨d, hd, rfl⟩ := List.mem_map.1 hc
    exact ⟨d, recode_lt (by decide) d hd, rfl⟩
  · exact Except.ok.inj ((dec_enc x).symm.trans ((congrArg dec h).trans (dec_enc y)))

/-- Settles O48: by the bounds of `enc` and `dec`; that of `dec` bounds `enc` from below. -/
theorem resultLengthsAreBounded : Obligations.ResultLengthsAreBounded := by
  refine ⟨enc_length_le, fun s b => dec_length_le, fun H v p => ?_⟩
  have hlow := length_le_enc (checkedPayload H v p)
  have hhigh := enc_length_le (checkedPayload H v p)
  rw [checkedPayload_length] at hlow hhigh
  exact ⟨by rw [encc]; omega, hhigh⟩

end

section
/-! ## What a command shows and what it leaves alone (R79, R110, R112, R113, R209) -/

namespace Sys2Proof.Machine

/-- Completion with a result that fits `OBUF` shows exactly the result (R32, R209). -/
theorem State.complete_doneWith (s : State) {out : List Byte} (h : out.length ≤ s.params.ocap) :
    (s.complete out).DoneWith out := by
  have holen : (s.complete out).olen.toNat = out.length := by
    rw [State.complete_olen, BitVec.toNat_ofNat, Nat.mod_eq_of_lt (lt_of_le_of_lt h (ocap_lt _))]
  have hcell : ∀ i, (s.complete out).outputCell i = out.getD i 0 := fun i => by
    rw [State.outputCell_complete, ← State.complete_olen, holen]
    split
    next => rfl
    next hi => exact (List.getD_eq_default _ _ (Nat.le_of_not_lt hi)).symm
  refine ⟨rfl, rfl, rfl, holen, List.ext_getElem ?_ fun i _ hi => ?_, fun i hi => ?_⟩
  · rw [State.output_length, holen]
  · simp only [State.output, List.getElem_map, List.getElem_range, hcell, List.getD_eq_getElem _ _ hi]
  · rw [hcell, List.getD_eq_default _ _ hi]

/-- `IBUF[i]` reads the same where neither the written cells nor the count of resets differ. -/
theorem State.inputCell_congr {s t : State} (hibuf : t.ibuf = s.ibuf) (hpower : t.powerOn = s.powerOn) (i : Nat) :
    t.inputCell i = s.inputCell i := by
  rw [State.inputCell, State.inputCell, hibuf, hpower]

/-- No ending writes anything that is the host's, nor the latches (R110, R130, R152, R160). -/
theorem State.settle_frame (s : State) {w : Work} (hw : s.work.Kept s.params w) (e : Ending) :
    s.CommandFrame (s.settle w e) := by
  obtain ⟨hlop, hlver, hlegal, -⟩ := hw
  cases e with
  | waits => exact ⟨rfl, rfl, rfl, rfl, rfl, rfl, rfl, rfl, rfl, rfl⟩
  | fails e pos ms => exact ⟨rfl, rfl, rfl, hlop, hlver, hlegal, rfl, rfl, rfl, rfl⟩
  | completes out ms => exact ⟨rfl, rfl, rfl, hlop, hlver, hlegal, rfl, rfl, rfl, rfl⟩

/-- An ending leaves `OBUF` as it was, or is DONE and writes the cells of its result (R79). -/
theorem State.settle_obuf (s : State) (w : Work) {e : Ending} (he : e.Bounded s.params) :
    (s.settle w e).obuf = s.obuf ∨
    (s.settle w e).seq = .done ∧ ∀ j, (s.settle w e).olen.toNat ≤ j →
      (s.settle w e).obuf.read? j = s.obuf.read? j := by
  cases e with
  | waits => exact .inl rfl
  | fails e pos ms => exact .inl rfl
  | completes out ms =>
    refine .inr ⟨rfl, fun j hj => ?_⟩
    obtain ⟨-, -, -, holen, -⟩ := State.complete_doneWith ((s.setWork w).logRequests ms) he
    rw [State.settle, holen] at hj
    exact (Memory.read?_writeSeq out s.obuf 0 j).trans (dif_neg (by omega))

/-- ENC and DEC complete at once on the empty input (R113, R133). -/
theorem exec_of_empty {s : State} (h : s.ilen = 0) :
    exec .enc s = .next (s.complete []) ∧ exec .dec s = .next (s.complete []) := by
  have hfits : ¬ s.inputTooLong = true := by simp [State.inputTooLong_iff, h]
  exact ⟨by rw [exec, execEnc, if_neg hfits, if_pos h], by rw [exec, execDec, if_neg hfits, if_pos h]⟩

end Sys2Proof.Machine

open Sys2Proof Sys2Proof.Machine

/-- Settles O29: ENC either finds the input too long or completes with its encoding, which fits `OBUF`. -/
theorem encCompletesWithTheEncoding : Obligations.EncCompletesWithTheEncoding := by
  intro s
  rcases execEnc_eq s with ⟨hlong, h⟩ | ⟨hle, hlen, w, h, -⟩
  · exact ⟨fun hle => absurd hlong (by omega), fun _ => ⟨_, h, s.raise_failedWith _ (by decide)⟩⟩
  · exact ⟨fun _ => ⟨_, h, (s.setWork w).complete_doneWith hlen⟩, fun hlong => absurd hle (by omega)⟩

/-- Settles O37: by how the command ends. -/
theorem commandsLeaveTheRestAlone : Obligations.CommandsLeaveTheRestAlone := by
  intro i s t hexec
  obtain ⟨hbounded, w, hkept, h⟩ := exec_ends i s
  obtain rfl : t = s.settle w (s.ending i) := Host.Outcome.next.inj (hexec.symm.trans h)
  have hframe := s.settle_frame hkept (s.ending i)
  obtain ⟨-, -, hibuf, -, -, -, hpower, -⟩ := id hframe
  refine ⟨hframe, State.inputCell_congr hibuf hpower, fun _ j hj => ?_, fun hdone => ?_⟩
  · rcases s.settle_obuf w hbounded with hobuf | ⟨-, hcells⟩
    · rw [hobuf]
    · exact hcells j hj
  · rcases s.settle_obuf w hbounded with hobuf | ⟨hseq, -⟩
    · exact hobuf
    · exact absurd hseq hdone

/-- Settles O35: the length is legal and the exit comes before the sequence. -/
theorem emptyInputCompletesEmpty : Obligations.EmptyInputCompletesEmpty := fun s h =>
  have ⟨henc, hdec⟩ := exec_of_empty h
  ⟨henc, hdec, s.complete_doneWith (Nat.zero_le _)⟩

end

section
/-! ## The decoder, and the way back through the encoder (R132, R141, R240) -/

namespace Sys2Proof.Machine

/-! ### Valid strings -/

/-- No character is invalid where every character has a digit (R26, R31). -/
theorem firstInvalid_eq_none_iff {s : List Byte} : firstInvalid s = none ↔ ∀ c ∈ s, ridx c ≠ none := by
  simp only [firstInvalid, List.findIdx?_eq_none_iff, Option.isNone_eq_false_iff, Option.isSome_iff_ne_none]

/-- A valid string is the characters of its digits (R31). -/
theorem map_alpha_digitsOf {s : List Byte} (h : firstInvalid s = none) : (digitsOf s).map alpha = s := by
  rw [digitsOf, List.map_map]
  refine (List.map_congr_left fun c hc => ?_).trans (List.map_id s)
  obtain ⟨d, hd⟩ := Option.ne_none_iff_exists'.1 (firstInvalid_eq_none_iff.1 h c hc)
  rw [Function.comp_apply, hd]
  exact (ridx_eq_some hd).2

/-- `enc(dec(s)) = s` for a string that decodes (R141). -/
theorem enc_of_dec {s b : List Byte} (h : dec s = .ok b) : enc b = s := by
  have hvalid := firstInvalid_of_dec h
  obtain rfl := Except.ok.inj ((dec_of_valid hvalid).symm.trans h)
  have hbytes : nats ((recode 58 256 (digitsOf s)).map (BitVec.ofNat 8)) = recode 58 256 (digitsOf s) :=
    nats_map_ofNat (recode_lt (by decide))
  rw [enc_eq_map_alpha, hbytes, recode_recode (by decide) (by decide) fun _ => digitsOf_lt, map_alpha_digitsOf hvalid]

/-! ### The output as the input of another state -/

/-- A state that holds the output of another, cell by cell, has it as its input (R240). -/
theorem State.input_eq_output {t u : State} (hlen : u.ilen = t.olen)
    (hcells : ∀ i, i < t.olen.toNat → u.inputCell i = t.outputCell i) : u.input = t.output := by
  rw [State.input, State.output, hlen]
  exact List.map_congr_left fun i hi => hcells i (List.mem_range.1 hi)

end Sys2Proof.Machine

open Sys2Proof Sys2Proof.Machine

/-- Settles O30: DEC finds the input too long, or fails where the decoding does, or completes with the decoding, which
fits `OBUF`. -/
theorem decCompletesWithTheDecoding : Obligations.DecCompletesWithTheDecoding := by
  intro s
  rcases execDec_eq s with ⟨hlong, h⟩ | ⟨hle, w, -, hdec⟩
  · exact ⟨fun hle => absurd hlong (by omega), fun _ => ⟨_, h, s.raise_failedWith _ (by decide)⟩⟩
  · refine ⟨fun _ => ?_, fun hlong => absurd hle (by omega)⟩
    rcases hdec with ⟨p, hd, hp, h⟩ | ⟨b, hd, hlen, h⟩
    · refine ⟨fun b hb => (nomatch hd.symm.trans hb), fun q hq => ?_⟩
      obtain rfl := Except.error.inj (hd.symm.trans hq)
      exact ⟨_, h, (s.setWork w).raise_failedWith _ (hp.trans s.ilen.isLt)⟩
    · refine ⟨fun c hc => ?_, fun p hp => nomatch hd.symm.trans hp⟩
      obtain rfl := Except.ok.inj (hd.symm.trans hc)
      exact ⟨_, h, (s.setWork w).complete_doneWith hlen⟩

/-- Settles O46: a decoded string is the encoding of its bytes, so it has the leading zeros that `enc` keeps. -/
theorem decodingAndEncodingAreInverse : Obligations.DecodingAndEncodingAreInverse := by
  obtain ⟨hzeros, -, -⟩ := encodingPreservesLeadingZeros
  refine ⟨dec_enc, fun s b h => ?_, fun s hs => ?_⟩
  · rw [← hzeros b, enc_of_dec h]
  · have h := dec_of_valid (firstInvalid_eq_none_iff.2 hs)
    exact ⟨_, h, enc_of_dec h⟩

/-- Settles O49: the input of DEC is the encoding that ENC has shown, and `dec` undoes it. -/
theorem decAfterEncRestoresTheInput : Obligations.DecAfterEncRestoresTheInput := by
  intro s t u hle henc hcap hparams hilen hcells
  obtain ⟨t', ht, -, -, -, -, houtput, -⟩ := (encCompletesWithTheEncoding s).1 hle
  obtain rfl : t = t' := Host.Outcome.next.inj (henc.symm.trans ht)
  have hinput : u.input = enc s.input := (State.input_eq_output hilen hcells).trans houtput
  have hfits : u.ilen.toNat ≤ u.params.cap := by rwa [hilen, hparams]
  exact ((decCompletesWithTheDecoding u).1 hfits).1 s.input (by rw [hinput, dec_enc])

end

section
/-! ## The checksum wrapper (R150 to R168)

A command that ends as its operands say shows the result or the error of that ending. So each statement about ENCC or
DECC comes down to which ending its operands have. -/

namespace Sys2Proof.Machine

/-! ### What a command that does not wait shows -/

/-- A command that fails shows exactly its error (R210). -/
theorem exec_of_fails {s : State} {i : Instr} {e : ErrorCause} {pos : Nat} {ms : List (List Byte)}
    (h : s.ending i = .fails e pos ms) : ∃ t, exec i s = .next t ∧ t.FailedWith e pos := by
  obtain ⟨hbounded, w, -, hnext⟩ := exec_ends i s
  rw [h] at hbounded hnext
  obtain ⟨-, hpos⟩ := hbounded
  have hcap := s.params.cap_le
  exact ⟨_, hnext, State.raise_failedWith _ e (by omega)⟩

/-- The requests of a command that fails are logged (R81). -/
theorem hashRequests_of_fails {s t : State} {i : Instr} {e : ErrorCause} {pos : Nat} {ms : List (List Byte)}
    (h : s.ending i = .fails e pos ms) (ht : exec i s = .next t) : t.hashRequests = s.hashRequests ++ ms := by
  obtain ⟨-, w, -, hnext⟩ := exec_ends i s
  rw [h] at hnext
  obtain rfl := Host.Outcome.next.inj (ht.symm.trans hnext)
  rfl

/-- A command that completes shows exactly its result (R209). -/
theorem exec_of_completes {s : State} {i : Instr} {out : List Byte} {ms : List (List Byte)}
    (h : s.ending i = .completes out ms) : ∃ t, exec i s = .next t ∧ t.DoneWith out := by
  obtain ⟨hbounded, w, -, hnext⟩ := exec_ends i s
  rw [h] at hbounded hnext
  exact ⟨_, hnext, State.complete_doneWith _ hbounded⟩

/-! ### The checksum -/

theorem firstFour_toList (d : Digest) : (firstFour d).toList = d.toList.take 4 := by
  refine List.ext_getElem (by simp) fun i hi _ => ?_
  have hi : i < 4 := by simpa using hi
  interval_cases i <;> simp [firstFour]

/-- The checksum is the first four bytes of the double hash (R150). -/
theorem csum_toList (H : HashFn) (m : List Byte) : (csum H m).toList = (H (H m).toList).toList.take 4 :=
  firstFour_toList _

/-- The length that cuts the last four bytes off a sequence that ends in four (R160). -/
theorem length_append_sub_four (data : List Byte) {chk : List Byte} (h : chk.length = 4) :
    (data ++ chk).length - 4 = data.length := by
  rw [List.length_append, h, Nat.add_sub_cancel]

/-- `decc` of a string that decodes to data and four checksum bytes (R161). -/
theorem decc_of_dec (H : HashFn) {s data chk : List Byte} (hd : dec s = .ok (data ++ chk)) (h : chk.length = 4) :
    decc H s = if (csum H data).toList = chk then .ok data else .error (.checksumMismatch, 0) := by
  simp only [decc, hd, length_append_sub_four data h, List.take_left, List.drop_left]
  exact if_neg (by rw [List.length_append]; omega)

/-- The string of ENCC decodes to the versioned payload and its checksum (R154, R155). -/
theorem dec_encc (H : HashFn) (v : Byte) (p : List Byte) :
    dec (encc H v p) = .ok (v :: p ++ (csum H (v :: p)).toList) :=
  dec_enc _

/-! ### How ENCC ends -/

theorem State.ending_encc_of_long {s : State} {v : Nat} (hv : v ≤ 255) (h : s.params.cap < s.ilen.toNat) :
    s.ending (.encc v) = .fails .lengthOverflow 0 [] := by
  rw [State.ending, State.operand?_of_long h, Ending.ofCommand, if_neg (Nat.not_lt.2 hv)]

theorem State.ending_encc_of_answers {s : State} {v : Nat} (hv : v ≤ 255) (hle : s.ilen.toNat ≤ s.params.cap)
    (ha : s.hashAnswers = true) :
    s.ending (.encc v) = .completes (encc Config.hash (BitVec.ofNat 8 v) s.input)
      (csumRequests Config.hash (BitVec.ofNat 8 v :: s.input)) := by
  rw [State.ending, State.operand?_of_fits hle, Ending.ofCommand, if_neg (Nat.not_lt.2 hv), ha]
  rfl

/-- The version is looked at before the length and the input (R153). -/
theorem exec_encc_of_large {v : Nat} (hv : 255 < v) (s : State) :
    exec (.encc v) s = .next (s.raise .invalidVersion 0) := by
  rw [exec, execEncc, execEnccWith, if_pos hv]

/-! ### How DECC ends -/

theorem State.ending_decc_of_long {s : State} (h : s.params.cap < s.ilen.toNat) :
    s.ending .decc = .fails .lengthOverflow 0 [] := by
  rw [State.ending, State.operand?_of_long h, Ending.ofCommand]

theorem State.ending_decc_of_invalid {s : State} {p : Nat} (hle : s.ilen.toNat ≤ s.params.cap)
    (hd : dec s.input = .error p) : s.ending .decc = .fails .invalidCharacter p [] := by
  simp only [State.ending, State.operand?_of_fits hle, Ending.ofCommand, hd]

theorem State.ending_decc_of_valid {s : State} {b : List Byte} (hle : s.ilen.toNat ≤ s.params.cap)
    (hd : dec s.input = .ok b) : s.ending .decc = .ofDecc s.hashAnswers b := by
  simp only [State.ending, State.operand?_of_fits hle, Ending.ofCommand, hd]

/-- Fewer than four decoded bytes are too short, and no request is made (R162). -/
theorem Ending.ofDecc_of_short (answers : Bool) {b : List Byte} (h : b.length < 4) :
    Ending.ofDecc answers b = .fails .tooShort 0 [] := by
  rw [Ending.ofDecc, if_pos h]

/-- Four decoded bytes or more are not too short (R162). -/
theorem Ending.ofDecc_of_four_le (answers : Bool) {b : List Byte} (h : 4 ≤ b.length) :
    Ending.ofDecc answers b = .waits ∨ (∃ out ms, Ending.ofDecc answers b = .completes out ms) ∨
      ∃ ms, Ending.ofDecc answers b = .fails .checksumMismatch 0 ms := by
  rw [Ending.ofDecc, if_neg (Nat.not_lt.2 h)]
  cases answers with
  | false => exact .inl rfl
  | true =>
    rw [if_neg (by decide)]
    split
    next => exact .inr (.inl ⟨_, _, rfl⟩)
    next => exact .inr (.inr ⟨_, rfl⟩)

/-- Data and four checksum bytes, with the hash core answering: the checksum decides (R161). -/
theorem Ending.ofDecc_append {data chk : List Byte} (h : chk.length = 4) :
    Ending.ofDecc true (data ++ chk) =
      if (csum Config.hash data).toList = chk then .completes data (csumRequests Config.hash data)
      else .fails .checksumMismatch 0 (csumRequests Config.hash data) := by
  have h4 : ¬ (data ++ chk).length < 4 := by rw [List.length_append]; omega
  rw [Ending.ofDecc, if_neg h4, if_neg (by decide), length_append_sub_four data h, List.take_left, List.drop_left]

end Sys2Proof.Machine

open Sys2Proof Sys2Proof.Machine

/-- Settles O31: the version, the length and the hash core decide which of the three endings ENCC has. -/
theorem enccCompletesWithTheCheckedEncoding : Obligations.EnccCompletesWithTheCheckedEncoding := by
  refine fun s v => ⟨fun hv => ?_, fun hv hlong => ?_, fun hv hle ha => ?_⟩
  · exact ⟨_, exec_encc_of_large hv s, s.raise_failedWith _ (by decide)⟩
  · exact exec_of_fails (State.ending_encc_of_long hv hlong)
  · exact exec_of_completes (State.ending_encc_of_answers hv hle ha)

/-- Settles O32: the length, the decoding and the checksum decide which ending DECC has. -/
theorem deccCompletesWithTheVerifiedData : Obligations.DeccCompletesWithTheVerifiedData := by
  refine fun s => ⟨fun hlong => exec_of_fails (State.ending_decc_of_long hlong), fun hle =>
    ⟨fun p hd => ?_, fun b hd hshort => ?_, fun data chk hd h4 ha => ?_⟩⟩
  · exact exec_of_fails (State.ending_decc_of_invalid hle hd)
  · exact exec_of_fails ((State.ending_decc_of_valid hle hd).trans (Ending.ofDecc_of_short _ hshort))
  · have hending := State.ending_decc_of_valid hle hd
    rw [ha, Ending.ofDecc_append h4, csum_toList] at hending
    split_ifs at hending ⊢ with hchk
    · exact exec_of_completes hending
    · exact exec_of_fails hending

/-- Settles O34: ENCC looks at the version before anything else. -/
theorem largeVersionFailsEncc : Obligations.LargeVersionFailsEncc :=
  fun s _ hv => ⟨exec_encc_of_large hv s, rfl⟩

/-- Settles O36: by the length of the decoded bytes, which are no more than the characters. -/
theorem shortDecodingFailsDecc : Obligations.ShortDecodingFailsDecc := by
  intro s b hle hd
  have hending := State.ending_decc_of_valid hle hd
  refine ⟨fun hshort => ?_, fun h4 herr t ht => ?_, fun h0 => ?_⟩
  · rw [Ending.ofDecc_of_short _ hshort] at hending
    obtain ⟨t, ht, hfailed⟩ := exec_of_fails hending
    obtain ⟨-, herr, -⟩ := id hfailed
    exact ⟨t, ht, hfailed, by rw [State.errCode, herr]; rfl, by rw [hashRequests_of_fails hending ht, List.append_nil]⟩
  · obtain ⟨-, w, -, hnext⟩ := exec_ends .decc s
    obtain rfl := Host.Outcome.next.inj (ht.symm.trans hnext)
    rw [hending]
    rcases Ending.ofDecc_of_four_le s.hashAnswers h4 with h | ⟨out, ms, h⟩ | ⟨ms, h⟩
    · rw [h]
      exact herr
    · simp [h, State.settle]
    · simp [h, State.settle]
  · have hlen := dec_length_le hd
    rw [State.input_length, h0] at hlen
    exact List.eq_nil_of_length_eq_zero (Nat.le_zero.1 hlen)

/-- Settles O39: of the endings only a failure leads from BUSY to ERROR, and none writes the input. -/
theorem failedCommandsExposeNothing : Obligations.FailedCommandsExposeNothing := by
  intro i s t hs hexec herror
  obtain ⟨-, w, hkept, hnext⟩ := exec_ends i s
  obtain rfl := Host.Outcome.next.inj (hexec.symm.trans hnext)
  obtain ⟨-, hilen, hibuf, -⟩ := s.settle_frame hkept (s.ending i)
  refine ⟨?_, hibuf, hilen⟩
  cases hending : s.ending i with
  | waits =>
    rw [hending] at herror
    exact absurd (hs.symm.trans herror) (by decide)
  | fails e pos ms =>
    obtain ⟨u, hu, hfailed⟩ := exec_of_fails hending
    rw [← hending, Host.Outcome.next.inj (hnext.symm.trans hu)]
    exact ⟨e, pos, hfailed⟩
  | completes out ms =>
    rw [hending] at herror
    nomatch herror

/-- Settles O47: the string decodes to the versioned payload and its checksum, which agrees. -/
theorem checkedDecodingInvertsCheckedEncoding : Obligations.CheckedDecodingInvertsCheckedEncoding :=
  fun H v p => (decc_of_dec H (dec_encc H v p) (by simp)).trans (if_pos rfl)

/-- Settles O50: the input of DECC is the string that ENCC has shown, and its checksum agrees. -/
theorem deccAfterEnccRestoresThePayload : Obligations.DeccAfterEnccRestoresThePayload := by
  intro s t u v hv hle ha hencc hcap hparams hau hilen hcells
  obtain ⟨t', ht, -, -, -, -, houtput, -⟩ := exec_of_completes (State.ending_encc_of_answers hv hle ha)
  obtain rfl : t = t' := Host.Outcome.next.inj (hencc.symm.trans ht)
  have hinput := (State.input_eq_output hilen hcells).trans houtput
  have hfits : u.ilen.toNat ≤ u.params.cap := by rwa [hilen, hparams]
  have hending := State.ending_decc_of_valid hfits (hinput ▸ dec_encc ..)
  rw [hau, Ending.ofDecc_append (by simp), if_pos rfl] at hending
  exact exec_of_completes hending

/-- Settles O53: the four bytes are taken from the second digest, which is all that CSUM writes beside them. -/
theorem checksumIsFourBytesOfTheDoubleHash : Obligations.ChecksumIsFourBytesOfTheDoubleHash :=
  fun H m _ => ⟨csum_toList H m, rfl, rfl⟩

end

section
/-! ## Long division (R182, R185)

The two instances of DIVMOD are radix pairs, and for a radix pair it is known what DIVMOD and each of its sums compute. -/

namespace Sys2Proof.Machine

/-- The two instances of DIVMOD (R184) are radix pairs. -/
theorem RadixPair.of_instance {base divisor : Nat}
    (h : (base = 256 ∧ divisor = 58) ∨ (base = 58 ∧ divisor = 256)) : RadixPair base divisor := by
  obtain ⟨rfl, rfl⟩ | ⟨rfl, rfl⟩ := h
  · exact radix_encoder
  · exact radix_decoder

/-- The range `WBUF[first..WLEN)` lies inside `WBUF`, so none of its cells is missing. -/
theorem Work.number_length {w : Work} {first : Nat} (h : w.wlen ≤ w.wbuf.length) :
    (w.number first).length = w.wlen - first := by
  rw [Work.number, List.length_drop, List.length_take, Nat.min_eq_left h]

end Sys2Proof.Machine

open Sys2Proof Sys2Proof.Machine

/-- Settles O51: by what DIVMOD computes for a radix pair; it moves neither `WLEN` nor the end of `WBUF`. -/
theorem divmodDividesWithRemainder : Obligations.DivmodDividesWithRemainder := by
  intro base divisor first w hpair hfirst hwlen hlegal d
  obtain ⟨hlen, htake, hdrop, hcells, hquot, hrem, -⟩ :=
    w.divmod_spec (.of_instance hpair) first hfirst hwlen hlegal
  have hcount : (d.number first).length = (w.number first).length := by
    rw [Work.number_length hwlen, Work.number_length (w := d) (hwlen.trans hlen.ge)]
    rfl
  exact ⟨hquot, hrem, hcells, hcount, htake, hdrop⟩

/-- Settles O52: the sum is exact below the bound, and the largest remainder with the largest element reaches it. -/
theorem accumulatorBoundIsExact : Obligations.AccumulatorBoundIsExact := by
  refine ⟨fun base divisor rem cell hpair hrem hcell => ?_, ?_, ?_⟩
  · obtain ⟨hexact, hbound⟩ := divAcc_toNat (.of_instance hpair) hrem hcell
    exact ⟨hexact, hexact.trans_le hbound⟩
  · rw [(divAcc_toNat radix_encoder (by decide) (by decide)).1]
    rfl
  · rw [(divAcc_toNat radix_decoder (by decide) (by decide)).1]
    rfl

end

section
/-! ## Issue, completion and errors (R206 to R213, R223) -/

namespace Sys2Proof.Machine

/-! ### Issue of a legal word -/

/-- A legal word is latched as the command it decodes to (R99, R207). -/
theorem State.command?_issue_of_ok (s : State) {w : Word} {i : Instr} (h : decode w = .ok i) :
    (s.issue w).command? = some i := by
  have hlegal : (s.issue w).work.legal = true := by rw [State.issue_work, isLegal, h]
  have hlatched : decode (s.issue w).latchedWord = .ok i :=
    (decode_latched (rsvField_of_decode h)).trans h
  rw [State.command?, if_pos hlegal, hlatched]
  rfl

/-- A fetched word of 32 bits is issued whole, with the engine's turn next (log 9). -/
theorem State.withFetchWord_toNat (s : State) (w : Word) :
    s.withFetchWord 32 w.toNat = { s.issue w with turns := .engine :: s.turns } := by
  rw [State.withFetchWord, Nat.mod_eq_of_lt w.isLt, BitVec.ofNat_toNat, BitVec.setWidth_eq]

/-! ### Which errors an ending can have -/

/-- A command that takes BUSY to ERROR ends in a failure with the error that `ERR` shows. -/
theorem State.ending_of_error {s t : State} {i : Instr} {e : ErrorCause} (hs : s.seq = .busy)
    (hexec : exec i s = .next t) (hseq : t.seq = .error) (herr : t.err = some e) :
    ∃ pos ms, s.ending i = .fails e pos ms := by
  obtain ⟨-, w, -, hnext⟩ := exec_ends i s
  obtain rfl := Host.Outcome.next.inj (hexec.symm.trans hnext)
  cases hending : s.ending i with
  | waits =>
    rw [hending] at hseq
    exact absurd (hs.symm.trans hseq) (by decide)
  | fails e' pos ms =>
    rw [hending] at herr
    obtain rfl : e' = e := Option.some.inj herr
    exact ⟨pos, ms, rfl⟩
  | completes out ms =>
    rw [hending] at hseq
    nomatch hseq

section

variable {answers : Bool} {x : Option (List Byte)} {e : ErrorCause} {pos : Nat} {ms : List (List Byte)}

/-- ENCC with a legal version and length does not fail (R156). -/
theorem Ending.ofEncc_ne_fails {m out : List Byte} : Ending.ofEncc answers m out ≠ .fails e pos ms := by
  cases answers <;> exact nofun

/-- Once its input is decoded, DECC fails with TooShort or ChecksumMismatch (R162, R164). -/
theorem Ending.ofDecc_eq_fails {b : List Byte} (h : Ending.ofDecc answers b = .fails e pos ms) :
    e = .tooShort ∨ e = .checksumMismatch := by
  rcases Nat.lt_or_ge b.length 4 with hshort | h4
  · rw [Ending.ofDecc_of_short answers hshort] at h
    cases h
    exact .inl rfl
  · rcases Ending.ofDecc_of_four_le answers h4 with heq | ⟨out, ms', heq⟩ | ⟨ms', heq⟩
    all_goals cases heq.symm.trans h
    exact .inr rfl

/-- ENC fails on its length alone (R223). -/
theorem Ending.error_of_enc (h : Ending.ofCommand answers .enc x = .fails e pos ms) : e = .lengthOverflow := by
  cases x with
  | none =>
    cases h
    rfl
  | some x => nomatch h

/-- DEC fails on its length or on a character (R223). -/
theorem Ending.error_of_dec (h : Ending.ofCommand answers .dec x = .fails e pos ms) :
    e = .invalidCharacter ∨ e = .lengthOverflow := by
  cases x with
  | none =>
    cases h
    exact .inr rfl
  | some x =>
    cases hd : dec x with
    | error p =>
      simp only [Ending.ofCommand, hd] at h
      cases h
      exact .inl rfl
    | ok b =>
      simp only [Ending.ofCommand, hd] at h
      nomatch h

/-- ENCC fails on its version or on its length (R223). -/
theorem Ending.error_of_encc {ver : Nat} (h : Ending.ofCommand answers (.encc ver) x = .fails e pos ms) :
    e = .invalidVersion ∨ e = .lengthOverflow := by
  cases x with
  | none =>
    obtain ⟨rfl, -, -⟩ := Ending.fails.inj h
    exact ite_eq_or_eq _ _ _
  | some x =>
    rw [Ending.ofCommand] at h
    split at h
    next =>
      cases h
      exact .inl rfl
    next => exact (Ending.ofEncc_ne_fails h).elim

/-- DECC fails on its length, on a character, or once its input is decoded (R223). -/
theorem Ending.error_of_decc (h : Ending.ofCommand answers .decc x = .fails e pos ms) :
    e = .invalidCharacter ∨ e = .tooShort ∨ e = .checksumMismatch ∨ e = .lengthOverflow := by
  cases x with
  | none =>
    cases h
    exact .inr (.inr (.inr rfl))
  | some x =>
    cases hd : dec x with
    | error p =>
      simp only [Ending.ofCommand, hd] at h
      cases h
      exact .inl rfl
    | ok b =>
      simp only [Ending.ofCommand, hd] at h
      rcases Ending.ofDecc_eq_fails h with he | he
      · exact .inr (.inl he)
      · exact .inr (.inr (.inl he))

end

/-! ### Input longer than `IBUF` -/

/-- With `ILEN > CAP` the command fails on the state as it is, ENCC if its version is legal (R206, R208). -/
theorem exec_of_long {s : State} {i : Instr} (hlong : s.params.cap < s.ilen.toNat)
    (hv : ∀ v, i = .encc v → v ≤ 255) : exec i s = .next (s.raise .lengthOverflow 0) := by
  cases i with
  | enc =>
    obtain ⟨-, h⟩ := (execEnc_eq s).resolve_right fun ⟨hle, _⟩ => absurd hlong hle.not_gt
    exact h
  | dec =>
    obtain ⟨-, h⟩ := (execDec_eq s).resolve_right fun ⟨hle, _⟩ => absurd hlong hle.not_gt
    exact h
  | encc ver =>
    rcases execEnccWith_eq Config.hash ver s with ⟨hlarge, -⟩ | ⟨-, -, h⟩ | ⟨-, hle, -⟩ | ⟨-, hle, -⟩
    · exact absurd hlarge (hv ver rfl).not_gt
    · exact h
    · exact absurd hlong hle.not_gt
    · exact absurd hlong hle.not_gt
  | decc =>
    obtain ⟨-, h⟩ := (execDeccWith_eq Config.hash s).resolve_right fun ⟨hle, _⟩ => absurd hlong hle.not_gt
    exact h

/-! ### Issuing again -/

/-- A command leaves its operands, and so does an issue after it (R212). -/
theorem State.sameOperands_issue {s t : State} {i : Instr} (h : exec i s = .next t) (w : Word) :
    s.SameOperands (t.issue w) := by
  obtain ⟨⟨hparams, hilen, -, -, -, -, -, hanswers, -, -⟩, hcells, -, -⟩ := commandsLeaveTheRestAlone i s t h
  exact ⟨hparams.symm, hilen.symm, hanswers.symm, fun j _ => (hcells j).symm⟩

end Sys2Proof.Machine

open Sys2Proof Sys2Proof.Machine

/-- Settles O27: a length that fits `OBUF` fits `OLEN`, and completion writes no input. -/
theorem completeShowsExactlyTheResult : Obligations.CompleteShowsExactlyTheResult :=
  fun s _ hout => ⟨s.complete_doneWith hout, rfl, rfl⟩

/-- Settles O38: by the errors that the endings of each command have. -/
theorem commandsRaiseOnlyTheirErrors : Obligations.CommandsRaiseOnlyTheirErrors := by
  intro i s t e hs hexec hseq herr
  obtain ⟨pos, ms, hending⟩ := State.ending_of_error hs hexec hseq herr
  cases i with
  | enc => exact Ending.error_of_enc hending
  | dec => exact Ending.error_of_dec hending
  | encc ver => exact Ending.error_of_encc hending
  | decc => exact Ending.error_of_decc hending

/-- Settles O44: the operands are those of the first issue, and the outcome depends on nothing else. -/
theorem retryGivesTheSameOutcome : Obligations.RetryGivesTheSameOutcome :=
  fun i s t w hs hexec hend =>
    outcomeDependsOnOperandsAlone i s (t.issue w) t (State.sameOperands_issue hexec w) hs rfl hexec hend

/-- Settles O11: the word is latched as the command, which the engine's turn executes. -/
theorem acceptedWordRunsNext : Obligations.AcceptedWordRunsNext := by
  refine fun s w i ts hs hi h => ⟨⟨_, step_of_cmdWrite hs h, ?_⟩, ?_⟩
  · exact (step_of_engine rfl).trans (engineTurn_of_command rfl (State.command?_issue_of_ok { s with turns := _ } hi))
  · rw [State.withFetchWord_toNat, step_of_engine rfl]
    exact engineTurn_of_command (s := s.issue w) rfl (s.command?_issue_of_ok hi)

/-- Settles O12: the write issues the word; BUSY is not DONE, so `OBUF` is gated. -/
theorem acceptedCmdWriteIssues : Obligations.AcceptedCmdWriteIssues :=
  fun _ w _ hs h => ⟨_, step_of_cmdWrite hs h, rfl, rfl, rfl, rfl, State.outputCell_of_not_done (by simp),
    opField_toNat w, verField_toNat w, rfl, rfl⟩

/-- Settles O28: a raise is written out field by field; ERROR is not DONE, so `OBUF` is gated. -/
theorem raiseShowsExactlyTheError : Obligations.RaiseShowsExactlyTheError :=
  fun s e _ hpos => ⟨s.raise_failedWith e hpos, rfl⟩

/-- Settles O33: each command looks at the length before it computes anything. -/
theorem longInputFailsEveryCommand : Obligations.LongInputFailsEveryCommand :=
  fun _ _ hlong hv => ⟨exec_of_long hlong hv, rfl⟩

end

section
/-! ## Reset, writes of the input, and the end of BUSY (R230, R238, R242) -/

namespace Sys2Proof.Machine

/-- A scheduled reset is the reset input, whatever the state was (R230, R233). -/
theorem step_of_reset {s : State} {ts : List Turn} (h : s.turns = .reset :: ts) :
    step s = .next (State.resetInput { s with turns := ts }) := step_of_cons h

/-! ### Writes of the input -/

/-- The outcome is read from `STATE`, `ERR`, `ERRPOS`, `OLEN` and `OBUF` alone (R24 to R26, R28, R32). -/
theorem State.sameOutcome_of_eq {s t : State} (hseq : s.seq = t.seq) (herr : s.err = t.err)
    (herrpos : s.errpos = t.errpos) (holen : s.olen = t.olen) (hobuf : s.obuf = t.obuf) : s.SameOutcome t :=
  ⟨hseq, herr, herrpos, holen, fun i => by rw [State.outputCell, State.outputCell, hseq, holen, hobuf]⟩

/-- A write to `ILEN` stores to `ILEN` or is ignored (R27, R73). -/
theorem State.writeIlen_sameOutcome (s : State) (v : Word) : s.SameOutcome (s.writeIlen v) := by
  rw [State.writeIlen]
  split <;> exact State.sameOutcome_of_eq rfl rfl rfl rfl rfl

/-- A write to a cell of `IBUF` stores to `IBUF` or is ignored (R71, R73). -/
theorem State.writeInput_sameOutcome (s : State) (i : Nat) (b : Byte) : s.SameOutcome (s.writeInput i b) := by
  rw [State.writeInput]
  split <;> exact State.sameOutcome_of_eq rfl rfl rfl rfl rfl

/-! ### An answering hash core -/

/-- With the hash core answering, ENCC does not wait (R82). -/
theorem Ending.ofEncc_answered_ne_waits (m out : List Byte) : Ending.ofEncc true m out ≠ .waits := nofun

/-- With the hash core answering, DECC does not wait (R82). -/
theorem Ending.ofDecc_answered_ne_waits (b : List Byte) : Ending.ofDecc true b ≠ .waits := by
  rcases Nat.lt_or_ge b.length 4 with hshort | h4
  · rw [Ending.ofDecc_of_short true hshort]
    exact nofun
  · rw [Ending.ofDecc, if_neg (Nat.not_lt.2 h4), if_neg (by decide)]
    split <;> exact nofun

/-- With the hash core answering, no command waits (R82, R242). -/
theorem Ending.ofCommand_answered_ne_waits (i : Instr) (x : Option (List Byte)) :
    Ending.ofCommand true i x ≠ .waits := by
  cases x with
  | none => cases i <;> exact nofun
  | some x =>
    cases i with
    | enc => exact nofun
    | dec =>
      rw [Ending.ofCommand]
      split <;> exact nofun
    | encc ver =>
      rw [Ending.ofCommand]
      split
      next => exact nofun
      next => exact Ending.ofEncc_answered_ne_waits _ _
    | decc =>
      rw [Ending.ofCommand]
      split
      next => exact nofun
      next => exact Ending.ofDecc_answered_ne_waits _

/-- With the hash core answering, neither a command nor an illegal word waits (R205, R242). -/
theorem State.turnEnding_ne_waits {s : State} (h : s.hashAnswers = true) : s.turnEnding ≠ .waits := by
  rw [State.turnEnding]
  split
  next i _ =>
    rw [State.ending, h]
    exact Ending.ofCommand_answered_ne_waits i _
  next => exact nofun

end Sys2Proof.Machine

open Sys2Proof Sys2Proof.Machine

/-- Settles O26: the write takes effect on `ILEN` or `IBUF` at most, neither of which the outcome is read from. -/
theorem inputWritesKeepTheOutcome : Obligations.InputWritesKeepTheOutcome := by
  intro s t ts hwrite hstep
  rcases hwrite with ⟨v, h⟩ | ⟨i, b, hi, h⟩
  · rw [step_of_regWrite (r := .ilen) rfl h, writeTarget_word] at hstep
    obtain rfl := Host.Outcome.next.inj hstep
    exact State.writeIlen_sameOutcome { s with turns := ts } v
  · rw [step_of_write (ofAccess_ibuf s.params hi) h, writeTarget_ibuf] at hstep
    obtain rfl := Host.Outcome.next.inj hstep
    exact State.writeInput_sameOutcome { s with turns := ts } i b

/-- Settles O40: the turn ends as the command or the illegal word does, and every ending but waiting leaves BUSY. -/
theorem engineTurnEndsBusy : Obligations.EngineTurnEndsBusy := by
  intro s ts hs ha h
  obtain ⟨-, w, -, hnext⟩ := engineTurn_ends (s := { s with turns := ts }) hs
  exact ⟨_, (step_of_engine h).trans hnext, State.settle_seq _ w (State.turnEnding_ne_waits ha)⟩

/-- Settles O8: the fields of the reset state one by one; IDLE is not DONE, so `OBUF` is gated. -/
theorem resetInputGivesTheResetState : Obligations.ResetInputGivesTheResetState :=
  fun _ _ h => ⟨_, step_of_reset h, rfl, rfl, rfl, rfl, rfl, State.outputCell_of_not_done (by simp), fun _ => rfl,
    rfl, rfl, rfl, rfl, rfl⟩

end
